-- ==== Sys2Proof/Word.lean ====
section
/-! DEFINITION. The word types of the machine and the plainest facts of them: bytes, 16-bit words, 12-bit
addresses, nibbles and register numbers (spec/00_scope.md R6, R8, R9; spec/10_state.md R21). All values are
unsigned; nothing in this machine is sign-extended. -/

namespace Sys2Proof

/-- A byte: a register, a timer, a memory cell or the immediate `NN`. -/
abbrev Byte := BitVec 8

/-- A 16-bit word: an opcode, `PC`, `I` or a return address. -/
abbrev Word := BitVec 16

/-- The 12-bit field `NNN`; it spans exactly the 4096 addresses of memory (spec/20_memory.md R61). -/
abbrev Addr := BitVec 12

/-- A 4-bit field of an opcode. -/
abbrev Nibble := BitVec 4

/-- The number of a general register, 0x0 to 0xF. -/
abbrev Reg := Fin 16

/-- The number of a key, 0x0 to 0xF. -/
abbrev Key := Fin 16

/-- The framebuffer as 32 rows of 64 one-bit cells; bit `c` of row `r` is the cell `FB[c + 64*r]`
(spec/10_state.md R30). -/
abbrev Framebuffer := Vector (BitVec 64) 32

end Sys2Proof
end

