-- ==== Sys2Proof/Syntax.lean ====
section
/-! DEFINITION. The 34 instructions of spec/30_encoding.md R96, one constructor per row of spec/opcode_table.json,
in the table's order. Where an encoding has bits that the semantics ignores (spec/30_encoding.md R95, R97, R100),
the constructor carries them as its last operand, so that an instruction determines its opcode: the failure latch
records the opcode fetched (spec/60_exceptions.md R214). Log entry 5. -/

namespace Sys2Proof

inductive Instr where
  /-- `00E0` CLS; `u` is the ignored field `op[11:4]`. R190 -/
  | cls (u : Byte)
  /-- `00EE` RET; `u` is the ignored field `op[11:4]`. R140 -/
  | ret (u : Byte)
  /-- `1NNN` JP NNN. R141 -/
  | jp (nnn : Addr)
  /-- `2NNN` CALL NNN. R142 -/
  | call (nnn : Addr)
  /-- `3XNN` SE Vx, NN. R150 -/
  | seImm (x : Reg) (nn : Byte)
  /-- `4XNN` SNE Vx, NN. R151 -/
  | sneImm (x : Reg) (nn : Byte)
  /-- `5XY0` SE Vx, Vy; `u` is the ignored low nibble. R152 -/
  | seReg (x y : Reg) (u : Nibble)
  /-- `6XNN` LD Vx, NN. R160 -/
  | ldImm (x : Reg) (nn : Byte)
  /-- `7XNN` ADD Vx, NN. R161 -/
  | addImm (x : Reg) (nn : Byte)
  /-- `8XY0` LD Vx, Vy. R162 -/
  | ldReg (x y : Reg)
  /-- `8XY1` OR Vx, Vy. R163 -/
  | orReg (x y : Reg)
  /-- `8XY2` AND Vx, Vy. R164 -/
  | andReg (x y : Reg)
  /-- `8XY3` XOR Vx, Vy. R165 -/
  | xorReg (x y : Reg)
  /-- `8XY4` ADD Vx, Vy. R166 -/
  | addReg (x y : Reg)
  /-- `8XY5` SUB Vx, Vy. R167 -/
  | subReg (x y : Reg)
  /-- `8XY6` SHR Vx; `u` is the ignored y field. R168 -/
  | shr (x : Reg) (u : Nibble)
  /-- `8XY7` SUBN Vx, Vy. R169 -/
  | subnReg (x y : Reg)
  /-- `8XYE` SHL Vx; `u` is the ignored y field. R170 -/
  | shl (x : Reg) (u : Nibble)
  /-- `9XY0` SNE Vx, Vy; `u` is the ignored low nibble. R153 -/
  | sneReg (x y : Reg) (u : Nibble)
  /-- `ANNN` LD I, NNN. R180 -/
  | ldI (nnn : Addr)
  /-- `BNNN` JP V0, NNN. R143 -/
  | jpV0 (nnn : Addr)
  /-- `CXNN` RND Vx, NN. R171 -/
  | rnd (x : Reg) (nn : Byte)
  /-- `DXYN` DRW Vx, Vy, N; `n` is the count of sprite rows. R191 -/
  | drw (x y : Reg) (n : Nat)
  /-- `EX9E` SKP Vx. R200 -/
  | skp (x : Reg)
  /-- `EXA1` SKNP Vx. R201 -/
  | sknp (x : Reg)
  /-- `FX07` LD Vx, DT. R203 -/
  | ldVxDt (x : Reg)
  /-- `FX0A` LD Vx, K. R202 -/
  | ldVxK (x : Reg)
  /-- `FX15` LD DT, Vx. R204 -/
  | ldDtVx (x : Reg)
  /-- `FX18` LD ST, Vx. R205 -/
  | ldStVx (x : Reg)
  /-- `FX1E` ADD I, Vx. R181 -/
  | addI (x : Reg)
  /-- `FX29` LD F, Vx. R182 -/
  | ldF (x : Reg)
  /-- `FX33` LD B, Vx. R183 -/
  | ldB (x : Reg)
  /-- `FX55` LD [I], Vx. R184 -/
  | storeRegs (x : Reg)
  /-- `FX65` LD Vx, [I]. R185 -/
  | loadRegs (x : Reg)
deriving DecidableEq, Repr

end Sys2Proof
end

