-- ==== Sys2Proof/Decode.lean ====
section
/-! DEFINITION. Decoding and encoding (spec/30_encoding.md R90 to R101). The decoder is total: an opcode selects one
of the 34 instructions or none, and a byte sequence decodes to an instruction and the rest or is rejected by name.
The encoder is written from the format table and the opcode map of the same file. -/

namespace Sys2Proof

/-! ### Fields (spec/30_encoding.md R90) -/

/-- A register field as a register number. -/
def regOfField (b : Nibble) : Reg := ⟨b.toNat, b.isLt⟩

/-- A register number as its 4-bit field. -/
def fieldOfReg (x : Reg) : Nibble := BitVec.ofNat 4 x.val

/-- `h = op[15:12]`, the primary dispatch key. -/
def fieldH (op : Word) : Nibble := op.extractLsb' 12 4

/-- `x = op[11:8]`. -/
def fieldX (op : Word) : Reg := regOfField (op.extractLsb' 8 4)

/-- `y = op[7:4]`, as the four bits. -/
def fieldYBits (op : Word) : Nibble := op.extractLsb' 4 4

/-- `y = op[7:4]`, as a register number. -/
def fieldY (op : Word) : Reg := regOfField (fieldYBits op)

/-- `n = op[3:0]`. -/
def fieldN (op : Word) : Nibble := op.extractLsb' 0 4

/-- `nn = op[7:0]`. -/
def fieldNN (op : Word) : Byte := op.extractLsb' 0 8

/-- `nnn = op[11:0]`. -/
def fieldNNN (op : Word) : Addr := op.extractLsb' 0 12

/-- `op[11:4]`, the bits group 0 ignores (spec/30_encoding.md R95). -/
def fieldU (op : Word) : Byte := op.extractLsb' 4 8

/-- The decoder's record, with the two further fields the Executor uses (spec/30_encoding.md R90). -/
structure Fields where
  h : Nibble
  x : Reg
  y : Reg
  n : Nibble
  nn : Byte
  nnn : Addr
deriving DecidableEq, Repr

/-- All six fields are extracted from every opcode, whichever instruction it is (spec/30_encoding.md R90,
spec/40_cycle.md R122). -/
def fieldsOf (op : Word) : Fields :=
  { h := fieldH op, x := fieldX op, y := fieldY op, n := fieldN op, nn := fieldNN op, nnn := fieldNNN op }

/-! ### Dispatch (spec/30_encoding.md R93) -/

/-- Group 0 is keyed on the low nibble; bits 11:4 are ignored (spec/30_encoding.md R95). -/
def decodeGroup0 (op : Word) : Option Instr :=
  match (fieldN op).toNat with
  | 0x0 => some (.cls (fieldU op))
  | 0xE => some (.ret (fieldU op))
  | _ => none

/-- Group 8 is keyed on the low nibble (spec/30_encoding.md R97). -/
def decodeGroup8 (op : Word) : Option Instr :=
  match (fieldN op).toNat with
  | 0x0 => some (.ldReg (fieldX op) (fieldY op))
  | 0x1 => some (.orReg (fieldX op) (fieldY op))
  | 0x2 => some (.andReg (fieldX op) (fieldY op))
  | 0x3 => some (.xorReg (fieldX op) (fieldY op))
  | 0x4 => some (.addReg (fieldX op) (fieldY op))
  | 0x5 => some (.subReg (fieldX op) (fieldY op))
  | 0x6 => some (.shr (fieldX op) (fieldYBits op))
  | 0x7 => some (.subnReg (fieldX op) (fieldY op))
  | 0xE => some (.shl (fieldX op) (fieldYBits op))
  | _ => none

/-- Group E is keyed on the low byte (spec/30_encoding.md R98). -/
def decodeGroupE (op : Word) : Option Instr :=
  if fieldNN op = 0x9E then some (.skp (fieldX op))
  else if fieldNN op = 0xA1 then some (.sknp (fieldX op))
  else none

/-- Group F is keyed on the low byte (spec/30_encoding.md R99). -/
def decodeGroupF (op : Word) : Option Instr :=
  if fieldNN op = 0x07 then some (.ldVxDt (fieldX op))
  else if fieldNN op = 0x0A then some (.ldVxK (fieldX op))
  else if fieldNN op = 0x15 then some (.ldDtVx (fieldX op))
  else if fieldNN op = 0x18 then some (.ldStVx (fieldX op))
  else if fieldNN op = 0x1E then some (.addI (fieldX op))
  else if fieldNN op = 0x29 then some (.ldF (fieldX op))
  else if fieldNN op = 0x33 then some (.ldB (fieldX op))
  else if fieldNN op = 0x55 then some (.storeRegs (fieldX op))
  else if fieldNN op = 0x65 then some (.loadRegs (fieldX op))
  else none

/-- The instruction an opcode selects; none exactly for the illegal opcodes of spec/30_encoding.md R101. Groups 5
and 9 have no secondary dispatch (spec/30_encoding.md R100). It reads the opcode alone (R106). -/
def decode (op : Word) : Option Instr :=
  match (fieldH op).toNat with
  | 0x0 => decodeGroup0 op
  | 0x1 => some (.jp (fieldNNN op))
  | 0x2 => some (.call (fieldNNN op))
  | 0x3 => some (.seImm (fieldX op) (fieldNN op))
  | 0x4 => some (.sneImm (fieldX op) (fieldNN op))
  | 0x5 => some (.seReg (fieldX op) (fieldY op) (fieldN op))
  | 0x6 => some (.ldImm (fieldX op) (fieldNN op))
  | 0x7 => some (.addImm (fieldX op) (fieldNN op))
  | 0x8 => decodeGroup8 op
  | 0x9 => some (.sneReg (fieldX op) (fieldY op) (fieldN op))
  | 0xA => some (.ldI (fieldNNN op))
  | 0xB => some (.jpV0 (fieldNNN op))
  | 0xC => some (.rnd (fieldX op) (fieldNN op))
  | 0xD => some (.drw (fieldX op) (fieldY op) (fieldN op).toNat)
  | 0xE => decodeGroupE op
  | _ => decodeGroupF op  -- 0xF: the only nibble left

/-! ### Bytes (spec/20_memory.md R62) -/

/-- The opcode of two consecutive bytes, the byte at the lower address first: `hi * 256 + lo`. -/
def wordOfBytes (hi lo : Byte) : Word := hi ++ lo

/-- The byte of an opcode that lies at the lower address. -/
def hiByte (op : Word) : Byte := op.extractLsb' 8 8

/-- The byte of an opcode that lies at the higher address. -/
def loByte (op : Word) : Byte := op.extractLsb' 0 8

/-- Why a byte sequence does not begin with an instruction. -/
inductive DecodeError where
  /-- Fewer than the two bytes every instruction has (spec/30_encoding.md R91). -/
  | truncated
  /-- The opcode selects no instruction (spec/30_encoding.md R101). -/
  | unrecognizedOpcode (op : Word)
deriving DecidableEq, Repr

/-- The first instruction of a byte sequence and the bytes after it. -/
def decodeBytes : List Byte → Except DecodeError (Instr × List Byte)
  | hi :: lo :: rest =>
    match decode (wordOfBytes hi lo) with
    | some i => .ok (i, rest)
    | none => .error (.unrecognizedOpcode (wordOfBytes hi lo))
  | _ => .error .truncated

/-- The instruction the decoder reads from an opcode whose `nbits` low bits are those of `w` and whose other bits
are 0: the word is laid out high byte first and given to `decodeBytes`. -/
def decodeTableWord (nbits w : Nat) : Option Instr :=
  let op : Word := BitVec.ofNat 16 (w % 2 ^ nbits)
  match decodeBytes [hiByte op, loByte op] with
  | .ok (i, _) => some i
  | .error _ => none

/-! ### The encoder (the format table of spec/30_encoding.md section 1 and the map of R96) -/

/-- Format A: the opcode nibble and `nnn`. -/
def packA (h : Nibble) (nnn : Addr) : Word := h ++ nnn

/-- Formats XI and XF: the opcode nibble, `x`, and `nn` or the function byte. -/
def packXI (h : Nibble) (x : Reg) (nn : Byte) : Word := h ++ fieldOfReg x ++ nn

/-- Formats XY and XYN: the opcode nibble, `x`, the y field, and the low nibble. -/
def packXY (h : Nibble) (x : Reg) (y n : Nibble) : Word := h ++ fieldOfReg x ++ y ++ n

/-- Format Z: opcode nibble 0, the ignored bits 11:4, and the function nibble. -/
def packZ (u : Byte) (n : Nibble) : Word := 0x0#4 ++ u ++ n

/-- The opcode of an instruction. -/
def encode : Instr → Word
  | .cls u => packZ u 0x0
  | .ret u => packZ u 0xE
  | .jp nnn => packA 0x1 nnn
  | .call nnn => packA 0x2 nnn
  | .seImm x nn => packXI 0x3 x nn
  | .sneImm x nn => packXI 0x4 x nn
  | .seReg x y u => packXY 0x5 x (fieldOfReg y) u
  | .ldImm x nn => packXI 0x6 x nn
  | .addImm x nn => packXI 0x7 x nn
  | .ldReg x y => packXY 0x8 x (fieldOfReg y) 0x0
  | .orReg x y => packXY 0x8 x (fieldOfReg y) 0x1
  | .andReg x y => packXY 0x8 x (fieldOfReg y) 0x2
  | .xorReg x y => packXY 0x8 x (fieldOfReg y) 0x3
  | .addReg x y => packXY 0x8 x (fieldOfReg y) 0x4
  | .subReg x y => packXY 0x8 x (fieldOfReg y) 0x5
  | .shr x u => packXY 0x8 x u 0x6
  | .subnReg x y => packXY 0x8 x (fieldOfReg y) 0x7
  | .shl x u => packXY 0x8 x u 0xE
  | .sneReg x y u => packXY 0x9 x (fieldOfReg y) u
  | .ldI nnn => packA 0xA nnn
  | .jpV0 nnn => packA 0xB nnn
  | .rnd x nn => packXI 0xC x nn
  | .drw x y n => packXY 0xD x (fieldOfReg y) (BitVec.ofNat 4 n)
  | .skp x => packXI 0xE x 0x9E
  | .sknp x => packXI 0xE x 0xA1
  | .ldVxDt x => packXI 0xF x 0x07
  | .ldVxK x => packXI 0xF x 0x0A
  | .ldDtVx x => packXI 0xF x 0x15
  | .ldStVx x => packXI 0xF x 0x18
  | .addI x => packXI 0xF x 0x1E
  | .ldF x => packXI 0xF x 0x29
  | .ldB x => packXI 0xF x 0x33
  | .storeRegs x => packXI 0xF x 0x55
  | .loadRegs x => packXI 0xF x 0x65

/-- The two bytes of an instruction, the high byte first (spec/30_encoding.md R91). -/
def encodeBytes (i : Instr) : List Byte := [hiByte (encode i), loByte (encode i)]

/-! ### The opcode map (spec/30_encoding.md R96) -/

/-- A row's mask and match: an opcode `op` selects the row when `op & mask = match`. -/
structure Pattern where
  mask : Word
  bits : Word
deriving DecidableEq, Repr

/-- The opcode selects the row. -/
def Pattern.selects (p : Pattern) (op : Word) : Bool := op &&& p.mask == p.bits

/-- The row of each instruction in the map of spec/30_encoding.md R96. -/
def Instr.pattern : Instr → Pattern
  | .cls _ => ⟨0xF00F, 0x0000⟩
  | .ret _ => ⟨0xF00F, 0x000E⟩
  | .jp _ => ⟨0xF000, 0x1000⟩
  | .call _ => ⟨0xF000, 0x2000⟩
  | .seImm _ _ => ⟨0xF000, 0x3000⟩
  | .sneImm _ _ => ⟨0xF000, 0x4000⟩
  | .seReg _ _ _ => ⟨0xF000, 0x5000⟩
  | .ldImm _ _ => ⟨0xF000, 0x6000⟩
  | .addImm _ _ => ⟨0xF000, 0x7000⟩
  | .ldReg _ _ => ⟨0xF00F, 0x8000⟩
  | .orReg _ _ => ⟨0xF00F, 0x8001⟩
  | .andReg _ _ => ⟨0xF00F, 0x8002⟩
  | .xorReg _ _ => ⟨0xF00F, 0x8003⟩
  | .addReg _ _ => ⟨0xF00F, 0x8004⟩
  | .subReg _ _ => ⟨0xF00F, 0x8005⟩
  | .shr _ _ => ⟨0xF00F, 0x8006⟩
  | .subnReg _ _ => ⟨0xF00F, 0x8007⟩
  | .shl _ _ => ⟨0xF00F, 0x800E⟩
  | .sneReg _ _ _ => ⟨0xF000, 0x9000⟩
  | .ldI _ => ⟨0xF000, 0xA000⟩
  | .jpV0 _ => ⟨0xF000, 0xB000⟩
  | .rnd _ _ => ⟨0xF000, 0xC000⟩
  | .drw _ _ _ => ⟨0xF000, 0xD000⟩
  | .skp _ => ⟨0xF0FF, 0xE09E⟩
  | .sknp _ => ⟨0xF0FF, 0xE0A1⟩
  | .ldVxDt _ => ⟨0xF0FF, 0xF007⟩
  | .ldVxK _ => ⟨0xF0FF, 0xF00A⟩
  | .ldDtVx _ => ⟨0xF0FF, 0xF015⟩
  | .ldStVx _ => ⟨0xF0FF, 0xF018⟩
  | .addI _ => ⟨0xF0FF, 0xF01E⟩
  | .ldF _ => ⟨0xF0FF, 0xF029⟩
  | .ldB _ => ⟨0xF0FF, 0xF033⟩
  | .storeRegs _ => ⟨0xF0FF, 0xF055⟩
  | .loadRegs _ => ⟨0xF0FF, 0xF065⟩

/-- The map's 34 rows in the spec's order. -/
def opcodeMap : List Pattern :=
  [⟨0xF00F, 0x0000⟩, ⟨0xF00F, 0x000E⟩, ⟨0xF000, 0x1000⟩, ⟨0xF000, 0x2000⟩, ⟨0xF000, 0x3000⟩, ⟨0xF000, 0x4000⟩,
   ⟨0xF000, 0x5000⟩, ⟨0xF000, 0x6000⟩, ⟨0xF000, 0x7000⟩] ++
  [⟨0xF00F, 0x8000⟩, ⟨0xF00F, 0x8001⟩, ⟨0xF00F, 0x8002⟩, ⟨0xF00F, 0x8003⟩, ⟨0xF00F, 0x8004⟩, ⟨0xF00F, 0x8005⟩,
   ⟨0xF00F, 0x8006⟩, ⟨0xF00F, 0x8007⟩, ⟨0xF00F, 0x800E⟩] ++
  [⟨0xF000, 0x9000⟩, ⟨0xF000, 0xA000⟩, ⟨0xF000, 0xB000⟩, ⟨0xF000, 0xC000⟩, ⟨0xF000, 0xD000⟩, ⟨0xF0FF, 0xE09E⟩,
   ⟨0xF0FF, 0xE0A1⟩] ++
  [⟨0xF0FF, 0xF007⟩, ⟨0xF0FF, 0xF00A⟩, ⟨0xF0FF, 0xF015⟩, ⟨0xF0FF, 0xF018⟩, ⟨0xF0FF, 0xF01E⟩, ⟨0xF0FF, 0xF029⟩,
   ⟨0xF0FF, 0xF033⟩, ⟨0xF0FF, 0xF055⟩, ⟨0xF0FF, 0xF065⟩]

end Sys2Proof
end

