-- ==== Sys2Proof/Config.lean ====
section
/-! DEFINITION. What the spec leaves open (spec/00_scope.md R6, R7; spec/92_eei_decisions.md, "Open parameters").
Each is an opaque constant without a body, so nothing in Lean can evaluate it and a statement about it holds
for every value of it. -/

namespace Sys2Proof

/-- The 80 glyph bytes that reset leaves at addresses 0x000 to 0x04F. OPEN in the spec
(spec/92_eei_decisions.md D3): the source gives the place and the size, not the bytes. Log entry 2. -/
opaque Config.font : Fin 80 → Byte

/-- Which of several pressed keys `FX0A` stores. OPEN in the spec (spec/92_eei_decisions.md D9): any function of
the set of pressed keys (the keypad's 16 bits). The operation that uses it (Sys2Proof/Machine/Operands.lean)
bounds the answer to a key that is pressed, the one limit the spec sets. Log entry 3. -/
opaque Config.keywaitPick : BitVec 16 → Nat

/-- The byte of the n-th draw of `RND` (spec/10_state.md R36, spec/92_eei_decisions.md D15): a free value for
each execution of `CXNN`, under no law. Log entry 4. -/
opaque Config.rnd : Nat → Byte

end Sys2Proof
end

