-- ==== Sys2Proof/Machine/State.lean ====
section
/-! DEFINITION. The state of the machine: everything spec/10_state.md R20 lists, as plain data, the failures of
spec/60_exceptions.md R210, and the state after reset (spec/10_state.md R40). -/

namespace Sys2Proof.Machine

/-- The seven failure causes of spec/60_exceptions.md R210, each with its payload. A failure is state of the machine
(it is latched, R214), not an outcome of the model's step: log entry 1. -/
inductive Failure where
  /-- Code 1: the fetched opcode selects no instruction; the raw opcode. -/
  | unrecognizedOpcode (op : Word)
  /-- Code 2: a framebuffer index out of range; the framebuffer. No instruction raises it (R212). -/
  | graphicsFault (fb : Framebuffer)
  /-- Code 3: `PC` above 4094 at the fetch; that `PC`. -/
  | fetchFault (pc : Word)
  /-- Code 4: a data access above address 4095; the address, an unbounded sum (spec/20_memory.md R64). -/
  | memoryFault (addr : Nat)
  /-- Code 5: `CALL` with 16 return addresses held. -/
  | stackOverflow
  /-- Code 6: `RET` with none held. -/
  | stackUnderflow
  /-- Code 7: a key skip whose register is above 15; the register's value. -/
  | keyIndexFault (k : Byte)
deriving DecidableEq, Repr

/-- What the failure latch holds: the failure and the opcode fetched, which a FetchFault has not (R214). -/
structure Latch where
  failure : Failure
  op : Option Word
deriving DecidableEq, Repr

/-- Main memory: the bytes that differ from what reset leaves, by address, in one canonical form
(`Memory.wf` in Sys2Proof/Machine/Ops.lean). -/
abbrev Memory := List Host.Cell

/-- The state of the core (spec/10_state.md R20). Field names are the spec's; the last field is the model's own. -/
structure State where
  /-- `MEM`, R33. -/
  mem : Memory
  /-- `V0` to `VF`, R21; `VF` is the flag register, R22. -/
  v : Vector Byte 16
  /-- `PC`, the address of the instruction being executed, R23. -/
  pc : Word
  /-- `I`, the index register, R25. -/
  i : Word
  /-- `STACK`, R26. -/
  stack : Vector Word 16
  /-- `SP`, the number of return addresses held, 0 to 16, R27. -/
  sp : Fin 17
  /-- `DT`, the delay timer, R28. -/
  dt : Byte
  /-- `ST`, the sound timer, R28. -/
  st : Byte
  /-- `KEY[15:0]`, bit `k` for key `k`, written by the host, R29. -/
  keys : BitVec 16
  /-- `FB`, R30. -/
  fb : Framebuffer
  /-- `DRAW`, the redraw-requested flag, R31. -/
  draw : Bool
  /-- `SOUND`, the sound-requested flag, R32. -/
  sound : Bool
  /-- `FAULT`, the failure latch, R35. -/
  fault : Option Latch
  /-- THE MODEL'S OWN: how many draws of `RND` were made; it numbers the free values of R36. Log entry 4. -/
  draws : Nat
deriving DecidableEq, Repr

/-- The ways a step can stop outside the state: none. Every failure the spec names is latched in the state and the
step answers a next state (spec/60_exceptions.md R214, spec/40_cycle.md R129), so this type has no constructor and
nobody raises it. Whether that is safe is said in log entry 1. -/
inductive Fault where
deriving DecidableEq, Repr

/-- The reasons an instruction has no meaning. -/
inductive Refusal where
  /-- Raised by an arm of `exec` whose instruction has no meaning yet; safe: nothing follows from a refusal. No arm
  raises it. -/
  | notModelled (mnemonic : String)
deriving DecidableEq, Repr

/-- The outcome of a step or of an instruction. -/
abbrev Result := Host.Outcome State Fault Refusal

/-- The state after reset (spec/10_state.md R40, spec/70_reset_and_hazards.md R240). Memory lists nothing: an
unlisted address reads as what reset leaves there. `draws` is DESIGN CHOICE 0, log entry 4. -/
def State.reset : State where
  mem := []
  v := Vector.replicate 16 0
  pc := 0x200
  i := 0
  stack := Vector.replicate 16 0
  sp := 0
  dt := 0
  st := 0
  keys := 0
  fb := Vector.replicate 32 0
  draw := false
  sound := false
  fault := none
  draws := 0

end Sys2Proof.Machine
end

