-- ==== Sys2Proof/Machine/Ops.lean ====
section
/-! DEFINITION. The named operations over memory, the program counter, the failure latch and the framebuffer: reading
and writing bytes (spec/20_memory.md R64), the fetch (R62), taking a failure (spec/60_exceptions.md R214) and the only
way out of it (spec/70_reset_and_hazards.md R240), and drawing a sprite (spec/45_display.md R191). -/

namespace Sys2Proof.Machine

/-! ### Memory -/

/-- What an unlisted address reads as: the contents reset leaves, the font at 0x000 to 0x04F and 0 elsewhere
(spec/10_state.md R33, R40). -/
def Memory.unlisted (a : Nat) : Byte :=
  if h : a < 80 then Config.font ⟨a, h⟩ else 0

/-- `MEM[a]`. -/
def Memory.read : Memory → Nat → Byte
  | [], a => Memory.unlisted a
  | (k, b) :: rest, a => if k = a then b else Memory.read rest a

/-- The listing without the address `a`. -/
def Memory.erase (m : Memory) (a : Nat) : Memory := m.filter fun e => e.1 != a

/-- The listing with the entry `(a, b)` before the first higher address. -/
def Memory.insert : Memory → Nat → Byte → Memory
  | [], a, b => [(a, b)]
  | e :: rest, a, b => if a < e.1 then (a, b) :: e :: rest else e :: Memory.insert rest a b

/-- `MEM[a] <- b`, in canonical form: sorted by address, and a byte equal to what the unlisted address reads as is
not listed. -/
def Memory.write (m : Memory) (a : Nat) (b : Byte) : Memory :=
  if b = Memory.unlisted a then m.erase a else (m.erase a).insert a b

/-- The canonical form from address `lo` on: addresses strictly rising and below 4096, and no entry equal to what
the unlisted address reads as. -/
def Memory.wfFrom (lo : Nat) : Memory → Bool
  | [] => true
  | (k, b) :: rest => decide (lo ≤ k) && decide (k < 4096) && (b != Memory.unlisted k) && Memory.wfFrom (k + 1) rest

/-- The canonical form of memory; equal memories are equal lists. -/
def Memory.wf (m : Memory) : Bool := Memory.wfFrom 0 m

/-- `MemRead(addr, 1)`; none is the access that fails, above address 4095 (spec/20_memory.md R64). -/
def memRead (m : Memory) (a : Nat) : Option Byte :=
  if a ≤ 4095 then some (m.read a) else none

/-- `MemWrite(addr, 1, v)`; none is the access that fails, above address 4095 (spec/20_memory.md R64). -/
def memWrite (m : Memory) (a : Nat) (b : Byte) : Option Memory :=
  if a ≤ 4095 then some (m.write a b) else none

/-- `n` one-byte reads at ascending addresses (spec/20_memory.md R63, R69): the bytes read before the first access
that fails, and the address of that access. -/
def readRange (m : Memory) : Nat → Nat → List Byte × Option Nat
  | _, 0 => ([], none)
  | a, n + 1 =>
    match memRead m a with
    | none => ([], some a)
    | some b => (b :: (readRange m (a + 1) n).1, (readRange m (a + 1) n).2)

/-- One-byte writes at ascending addresses: memory with the writes before the first access that fails, and the
address of that access (spec/44_index_mem.md R186). -/
def writeRange : Memory → Nat → List Byte → Memory × Option Nat
  | m, _, [] => (m, none)
  | m, a, b :: bs =>
    match memWrite m a b with
    | none => (m, some a)
    | some m' => writeRange m' (a + 1) bs

/-- `Fetch(pc)`: the two bytes at `pc` and `pc + 1`, high byte first, without a change of state; none above 4094
(spec/20_memory.md R62, spec/40_cycle.md R121). -/
def fetch (m : Memory) (pc : Word) : Option Word :=
  if pc.toNat ≤ 4094 then some (wordOfBytes (m.read pc.toNat) (m.read (pc.toNat + 1))) else none

/-! ### The program counter -/

/-- `PC <- (PC + k) mod 2^16` (spec/10_state.md R24). -/
def State.advance (s : State) (k : Word) : State := { s with pc := s.pc + k }

/-- The skip: `PC` advances by 4 when the condition holds and by 2 otherwise (spec/10_state.md R24). -/
def State.skipIf (s : State) (c : Bool) : State := if c then s.advance 4 else s.advance 2

/-! ### Taking a failure (spec/60_exceptions.md R214) -/

/-- Failure entry: `FAULT <- (F, info, op)`; nothing else is written and control goes nowhere. -/
def State.raise (s : State) (f : Failure) (op : Option Word) : State := { s with fault := some ⟨f, op⟩ }

/-- The end of an instruction that raised: a next state with the failure latched. `s` holds whatever the instruction
wrote before the access that failed. -/
def failWith (f : Failure) (op : Word) (s : State) : Result := .next (s.raise f (some op))

/-- The end of an instruction whose accesses may have failed: with a failing address, a MemoryFault over the partial
state; without one, the completed state. -/
def endAccesses (bad : Option Nat) (op : Word) (part done : State) : Result :=
  match bad with
  | some a => failWith (.memoryFault a) op part
  | none => .next done

/-- The failure's code (spec/60_exceptions.md R210). -/
def Failure.code : Failure → Nat
  | .unrecognizedOpcode _ => 1
  | .graphicsFault _ => 2
  | .fetchFault _ => 3
  | .memoryFault _ => 4
  | .stackOverflow => 5
  | .stackUnderflow => 6
  | .keyIndexFault _ => 7

/-- `reset()`, the only way out of the halted state (spec/60_exceptions.md R215, R217; spec/70_reset_and_hazards.md
R240, R241): the state after reset whatever came before. The draw counter is the model's own and stands, so that a
draw after a reset is a fresh one (log entry 4). -/
def State.doReset (s : State) : State := { State.reset with draws := s.draws }

/-! ### The timer tick (spec/40_cycle.md R125, R126) -/

/-- Delay-timer decay (R125). -/
def State.tickDelay (s : State) : State := if s.dt = 0 then s else { s with dt := s.dt - 1 }

/-- Sound-timer decay and the sound request (R126). -/
def State.tickSound (s : State) : State :=
  if s.st = 0 then s else { s with st := s.st - 1, sound := s.sound || s.st == 1 }

/-- The tick that ends every cycle that raised nothing. -/
def State.tick (s : State) : State := s.tickDelay.tickSound

/-! ### The framebuffer (spec/45_display.md R190 to R192) -/

/-- `FB[c]`. -/
def Framebuffer.cell (fb : Framebuffer) (c : Fin 2048) : Bool :=
  (fb[c.val / 64]'(by omega)).getLsbD (c.val % 64)

/-- `FB[c] <- FB[c] ^ 1`. -/
def Framebuffer.toggle (fb : Framebuffer) (c : Fin 2048) : Framebuffer :=
  fb.set (c.val / 64) ((fb[c.val / 64]'(by omega)) ^^^ BitVec.twoPow 64 (c.val % 64)) (by omega)

/-- All cells 0. -/
def Framebuffer.blank : Framebuffer := Vector.replicate 32 0

/-- The cell of sprite row `row` and bit column `col` for a sprite at `(vx, vy)`: the coordinates are not reduced, the
index is, once (R191, R192). Its range is why a GraphicsFault cannot occur (spec/60_exceptions.md R212). -/
def spriteCell (vx vy : Byte) (row col : Nat) : Fin 2048 :=
  ⟨((vx.toNat + col) + (vy.toNat + row) * 64) % 2048, Nat.mod_lt _ (by decide)⟩

/-- Bit `7 - col` of a sprite byte: the most significant bit is column 0 (R191). -/
def spriteBit (b : Byte) (col : Nat) : Bool := b.getLsbD (7 - col)

/-- A framebuffer and whether a toggle has turned a set cell off. -/
abbrev Canvas := Framebuffer × Bool

/-- One bit of a sprite row: a 1 toggles its cell and records a collision, a 0 leaves it alone. -/
def drawBit (vx vy : Byte) (row : Nat) (b : Byte) (cv : Canvas) (col : Nat) : Canvas :=
  if spriteBit b col then
    (Framebuffer.toggle cv.1 (spriteCell vx vy row col),
      cv.2 || Framebuffer.cell cv.1 (spriteCell vx vy row col))
  else cv

/-- One sprite row, columns 0 to 7 in order. -/
def drawRow (vx vy : Byte) (row : Nat) (b : Byte) (cv : Canvas) : Canvas :=
  (List.range 8).foldl (drawBit vx vy row b) cv

/-- The sprite rows from `row` on, one byte each, in order. -/
def drawRows (vx vy : Byte) : Nat → List Byte → Canvas → Canvas
  | _, [], cv => cv
  | row, b :: bs, cv => drawRows vx vy (row + 1) bs (drawRow vx vy row b cv)

end Sys2Proof.Machine
end

