-- ==== Sys2Proof/Machine/Operands.lean ====
section
/-! DEFINITION. Every operand form of the instruction set (spec/30_encoding.md R92): registers named by X and Y, the
registers 0 to X, unsigned immediates, the address `I + k`, keys, and the byte drawn. -/

namespace Sys2Proof.Machine

/-! ### Registers (spec/10_state.md R21) -/

/-- `V[x]`. -/
def State.reg (s : State) (x : Reg) : Byte := s.v[x]

/-- `V[x] <- b`. -/
def State.setReg (s : State) (x : Reg) (b : Byte) : State := { s with v := s.v.set x.val b x.isLt }

/-- The number of `VF`, the flag register (spec/10_state.md R22). -/
def regF : Reg := 15

/-- `V[0], .., V[x]`, the source of a block store (spec/44_index_mem.md R184). -/
def State.firstRegs (s : State) (x : Reg) : List Byte := s.v.toList.take (x.val + 1)

/-- `V[k] <- b0; V[k+1] <- b1; ..` -/
def loadFrom : Nat → List Byte → Vector Byte 16 → Vector Byte 16
  | _, [], v => v
  | k, b :: bs, v => loadFrom (k + 1) bs (v.setIfInBounds k b)

/-- `V[0] <- b0; V[1] <- b1; ..`, the destination of a block load (spec/44_index_mem.md R185). -/
def State.setFirstRegs (s : State) (bs : List Byte) : State := { s with v := loadFrom 0 bs s.v }

/-! ### Immediates, zero-extended to the width of their use (spec/30_encoding.md R92) -/

/-- `NNN` as a 16-bit address or index value. -/
def wordOfAddr (nnn : Addr) : Word := nnn.setWidth 16

/-- A byte as a 16-bit value. -/
def wordOfByte (b : Byte) : Word := b.setWidth 16

/-! ### The address `I + k` (spec/44_index_mem.md R186) -/

/-- `I` as an unbounded number, to which an instruction adds its offset before the bounds check. -/
def State.base (s : State) : Nat := s.i.toNat

/-- `I <- (base + x + 1) mod 2^16`, the advance of the block transfers (spec/44_index_mem.md R184, R185). -/
def State.advanceIndex (s : State) (x : Reg) : State := { s with i := BitVec.ofNat 16 (s.base + x.val + 1) }

/-- The three digits `FX33` stores (spec/44_index_mem.md R183). -/
def bcdDigits (b : Byte) : List Byte :=
  [BitVec.ofNat 8 (b.toNat / 100), BitVec.ofNat 8 (b.toNat / 10 % 10), BitVec.ofNat 8 (b.toNat % 10)]

/-! ### Keys (spec/10_state.md R29) -/

/-- `KEY[k]`. -/
def State.key (s : State) (k : Key) : Bool := s.keys.getLsbD k.val

/-- The pressed keys among the sixteen, in ascending order. -/
def pressedKeys (keys : BitVec 16) : List Key := (List.finRange 16).filter fun k => keys.getLsbD k.val

/-- `KEYWAIT_PICK(P)`: some element of the non-empty list of pressed keys, which one being the open parameter
`Config.keywaitPick` of the keypad (spec/46_keypad_timers.md R202, log entry 3). The only key of a singleton needs no
choice. -/
def pickKey (keys : BitVec 16) (k : Key) : List Key → Key
  | [] => k
  | more => (k :: more).getD (Config.keywaitPick keys % (more.length + 1)) k

/-- The key a key skip names, by a register's whole value; none above 15 (spec/46_keypad_timers.md R200). -/
def keyIndex (b : Byte) : Option Key := if h : b.toNat < 16 then some ⟨b.toNat, h⟩ else none

/-! ### The drawn byte (spec/10_state.md R36) -/

/-- `RND` for this execution of `CXNN`: the free value of the next draw. -/
def State.rndByte (s : State) : Byte := Config.rnd s.draws

/-- The draw is used up; the next one is another. -/
def State.nextDraw (s : State) : State := { s with draws := s.draws + 1 }

end Sys2Proof.Machine
end

