-- ==== Sys2Proof/Machine/Flags.lean ====
section
/-! DEFINITION. The flag computations (spec/10_state.md R22, spec/43_alu.md R172) and the order in which a
flag-writing instruction writes (spec/43_alu.md R173). Each flag is the value 0 or 1 of `VF`. -/

namespace Sys2Proof.Machine

/-- A flag as the value of `VF`. -/
def flagByte (c : Bool) : Byte := if c then 1 else 0

/-- The carry out of bit 7 (spec/43_alu.md R166). -/
def carry (a b : Byte) : Bool := decide (a.toNat + b.toNat > 255)

/-- No borrow in `a - b` (spec/43_alu.md R167, R169): a borrow occurs exactly when `b > a`. -/
def noBorrow (a b : Byte) : Bool := !decide (b.toNat > a.toNat)

/-- The bit shifted out to the right (spec/43_alu.md R168). -/
def bitOutRight (a : Byte) : Bool := a.getLsbD 0

/-- The bit shifted out to the left (spec/43_alu.md R170). -/
def bitOutLeft (a : Byte) : Bool := a.getLsbD 7

/-- The unreduced index sum exceeds 0xFFF (spec/44_index_mem.md R181). -/
def indexOverflow (i : Word) (a : Byte) : Bool := decide (i.toNat + a.toNat > 0xFFF)

/-- `VF <- flag`. -/
def State.setFlag (s : State) (c : Bool) : State := s.setReg regF (flagByte c)

/-- `VF <- flag; V[x] <- result`, in that order, so that with `x = 15` the result stands (spec/43_alu.md R173). -/
def State.setFlagThenReg (s : State) (c : Bool) (x : Reg) (b : Byte) : State := (s.setFlag c).setReg x b

end Sys2Proof.Machine
end

