-- ==== Sys2Proof/Machine/Alu.lean ====
section
/-! DEFINITION. Register load, arithmetic, logic, shift and random (spec/43_alu.md): `6XNN`, `7XNN`, `8XY0` to `8XYE`,
`CXNN`. All arithmetic is unsigned and reduced modulo 256 (R172). -/

namespace Sys2Proof.Machine

/-- The end of an instruction whose only effect is a register: `V[x] <- b`, `PC <- PC + 2`. -/
def endReg (x : Reg) (b : Byte) (s : State) : Result := .next ((s.setReg x b).advance 2)

/-- The end of a flag-writing instruction: `VF <- flag`, `V[x] <- b`, `PC <- PC + 2` (R173). The flag and the result
come from operands sampled before either write. -/
def endFlagReg (c : Bool) (x : Reg) (b : Byte) (s : State) : Result := .next ((s.setFlagThenReg c x b).advance 2)

/-- `6XNN` LD Vx, NN (R160). -/
def execLdImm (x : Reg) (nn : Byte) (s : State) : Result := endReg x nn s

/-- `7XNN` ADD Vx, NN (R161): no flag. -/
def execAddImm (x : Reg) (nn : Byte) (s : State) : Result := endReg x (s.reg x + nn) s

/-- `8XY0` LD Vx, Vy (R162). -/
def execLdReg (x y : Reg) (s : State) : Result := endReg x (s.reg y) s

/-- `8XY1` OR Vx, Vy (R163): no flag. -/
def execOrReg (x y : Reg) (s : State) : Result := endReg x (s.reg x ||| s.reg y) s

/-- `8XY2` AND Vx, Vy (R164): no flag. -/
def execAndReg (x y : Reg) (s : State) : Result := endReg x (s.reg x &&& s.reg y) s

/-- `8XY3` XOR Vx, Vy (R165): no flag. -/
def execXorReg (x y : Reg) (s : State) : Result := endReg x (s.reg x ^^^ s.reg y) s

/-- `8XY4` ADD Vx, Vy (R166): `VF` is the carry. -/
def execAddReg (x y : Reg) (s : State) : Result :=
  endFlagReg (carry (s.reg x) (s.reg y)) x (s.reg x + s.reg y) s

/-- `8XY5` SUB Vx, Vy (R167): `VF` is 1 when there is no borrow. -/
def execSubReg (x y : Reg) (s : State) : Result :=
  endFlagReg (noBorrow (s.reg x) (s.reg y)) x (s.reg x - s.reg y) s

/-- `8XY6` SHR Vx (R168): `V[x]` is shifted, the y field ignored. -/
def execShr (x : Reg) (s : State) : Result := endFlagReg (bitOutRight (s.reg x)) x (s.reg x >>> 1) s

/-- `8XY7` SUBN Vx, Vy (R169): `VF` is 1 when there is no borrow. -/
def execSubnReg (x y : Reg) (s : State) : Result :=
  endFlagReg (noBorrow (s.reg y) (s.reg x)) x (s.reg y - s.reg x) s

/-- `8XYE` SHL Vx (R170): `V[x]` is shifted, the y field ignored. -/
def execShl (x : Reg) (s : State) : Result := endFlagReg (bitOutLeft (s.reg x)) x (s.reg x <<< 1) s

/-- `CXNN` RND Vx, NN (R171): the byte drawn is a free value, a new one for each execution (log entry 4). -/
def execRnd (x : Reg) (nn : Byte) (s : State) : Result := endReg x (s.rndByte &&& nn) s.nextDraw

end Sys2Proof.Machine
end

