-- ==== Sys2Proof/Machine/Display.lean ====
section
/-! DEFINITION. The display instructions (spec/45_display.md): `00E0` and `DXYN`. -/

namespace Sys2Proof.Machine

/-- `00E0` CLS (R190): the framebuffer is cleared and a redraw requested. -/
def execCls (s : State) : Result :=
  .next ({ s with fb := Framebuffer.blank, draw := true }.advance 2)

/-- `DXYN` DRW Vx, Vy, N (R191): coordinates and `I` are sampled first, the rows are drawn in order, then `VF`, `DRAW`
and `PC` are written. When a sprite byte lies above address 4095, the rows before it stay drawn and nothing else is
written. A sprite byte is read from `MEM`, which drawing does not touch. -/
def execDrw (x y : Reg) (n : Nat) (s : State) : Result :=
  let bytes := readRange s.mem s.base n
  let cv := drawRows (s.reg x) (s.reg y) 0 bytes.1 (s.fb, false)
  endAccesses bytes.2 (encode (.drw x y n)) { s with fb := cv.1 }
    (({ s with fb := cv.1, draw := true }.setFlag cv.2).advance 2)

end Sys2Proof.Machine
end

