-- ==== Sys2Proof/Machine/Flow.lean ====
section
/-! DEFINITION. Control transfer (spec/41_flow.md): `00EE`, `1NNN`, `2NNN`, `BNNN`. -/

namespace Sys2Proof.Machine

/-- `00EE` RET (R140): pop, and resume after the call; the entry popped keeps its value. -/
def execRet (u : Byte) (s : State) : Result :=
  if h : s.sp.val = 0 then failWith .stackUnderflow (encode (.ret u)) s
  else .next { s with sp := ⟨s.sp.val - 1, by omega⟩, pc := s.stack[s.sp.val - 1]'(by omega) + 2 }

/-- `1NNN` JP NNN (R141). -/
def execJp (nnn : Addr) (s : State) : Result := .next { s with pc := wordOfAddr nnn }

/-- `2NNN` CALL NNN (R142): the address pushed is that of the call itself. -/
def execCall (nnn : Addr) (s : State) : Result :=
  if h : s.sp.val < 16 then
    .next { s with stack := s.stack.set s.sp.val s.pc h, sp := ⟨s.sp.val + 1, by omega⟩, pc := wordOfAddr nnn }
  else failWith .stackOverflow (encode (.call nnn)) s

/-- `BNNN` JP V0, NNN (R143): the sum is not reduced to 12 bits. -/
def execJpV0 (nnn : Addr) (s : State) : Result := .next { s with pc := wordOfAddr nnn + wordOfByte (s.reg 0) }

end Sys2Proof.Machine
end

