-- ==== Sys2Proof/Machine/IndexMem.lean ====
section
/-! DEFINITION. The index register and memory transfer (spec/44_index_mem.md): `ANNN`, `FX1E`, `FX29`, `FX33`, `FX55`,
`FX65`. Addresses are `I + k`, not reduced; an access above 4095 ends the instruction in a MemoryFault, with the
accesses before it made and `I` and `PC` unchanged (R186). -/

namespace Sys2Proof.Machine

/-- `ANNN` LD I, NNN (R180). -/
def execLdI (nnn : Addr) (s : State) : Result := .next ({ s with i := wordOfAddr nnn }.advance 2)

/-- `FX1E` ADD I, Vx (R181): the addend is sampled before `VF` is written. -/
def execAddI (x : Reg) (s : State) : Result :=
  .next (({ s with i := s.i + wordOfByte (s.reg x) }.setFlag (indexOverflow s.i (s.reg x))).advance 2)

/-- `FX29` LD F, Vx (R182): `V[x]` is not masked to a digit. -/
def execLdF (x : Reg) (s : State) : Result := .next ({ s with i := wordOfByte (s.reg x) * 5 }.advance 2)

/-- `FX33` LD B, Vx (R183). -/
def execLdB (x : Reg) (s : State) : Result :=
  let w := writeRange s.mem s.base (bcdDigits (s.reg x))
  endAccesses w.2 (encode (.ldB x)) { s with mem := w.1 } ({ s with mem := w.1 }.advance 2)

/-- `FX55` LD [I], Vx (R184). -/
def execStoreRegs (x : Reg) (s : State) : Result :=
  let w := writeRange s.mem s.base (s.firstRegs x)
  endAccesses w.2 (encode (.storeRegs x)) { s with mem := w.1 } (({ s with mem := w.1 }.advanceIndex x).advance 2)

/-- `FX65` LD Vx, [I] (R185). -/
def execLoadRegs (x : Reg) (s : State) : Result :=
  let r := readRange s.mem s.base (x.val + 1)
  endAccesses r.2 (encode (.loadRegs x)) (s.setFirstRegs r.1) (((s.setFirstRegs r.1).advanceIndex x).advance 2)

end Sys2Proof.Machine
end

