-- ==== Sys2Proof/Machine/KeypadTimers.lean ====
section
/-! DEFINITION. The keypad and timer instructions (spec/46_keypad_timers.md): `EX9E`, `EXA1`, `FX0A`, `FX07`, `FX15`,
`FX18`. The tick that follows in the same cycle is Sys2Proof/Machine/Cycle.lean's. -/

namespace Sys2Proof.Machine

/-- The key skips: the key is the register's whole value, and above 15 there is none (R200, R201). -/
def endKeySkip (x : Reg) (op : Word) (pressed : Bool) (s : State) : Result :=
  match keyIndex (s.reg x) with
  | some k => .next (s.skipIf (s.key k == pressed))
  | none => failWith (.keyIndexFault (s.reg x)) op s

/-- `EX9E` SKP Vx (R200). -/
def execSkp (x : Reg) (s : State) : Result := endKeySkip x (encode (.skp x)) true s

/-- `EXA1` SKNP Vx (R201). -/
def execSknp (x : Reg) (s : State) : Result := endKeySkip x (encode (.sknp x)) false s

/-- `FX0A` LD Vx, K (R202): with no key pressed nothing changes, and the next cycle executes the word at `PC` again. -/
def execLdVxK (x : Reg) (s : State) : Result :=
  match pressedKeys s.keys with
  | [] => .next s
  | k :: more => endReg x (BitVec.ofNat 8 (pickKey s.keys k more).val) s

/-- `FX07` LD Vx, DT (R203). -/
def execLdVxDt (x : Reg) (s : State) : Result := endReg x s.dt s

/-- `FX15` LD DT, Vx (R204). -/
def execLdDtVx (x : Reg) (s : State) : Result := .next ({ s with dt := s.reg x }.advance 2)

/-- `FX18` LD ST, Vx (R205). -/
def execLdStVx (x : Reg) (s : State) : Result := .next ({ s with st := s.reg x }.advance 2)

end Sys2Proof.Machine
end

