-- ==== Sys2Proof/Machine/Skip.lean ====
section
/-! DEFINITION. Conditional skips on registers (spec/42_skip.md): `3XNN`, `4XNN`, `5XY0`, `9XY0`. -/

namespace Sys2Proof.Machine

/-- `3XNN` SE Vx, NN (R150). -/
def execSeImm (x : Reg) (nn : Byte) (s : State) : Result := .next (s.skipIf (s.reg x == nn))

/-- `4XNN` SNE Vx, NN (R151). -/
def execSneImm (x : Reg) (nn : Byte) (s : State) : Result := .next (s.skipIf (s.reg x != nn))

/-- `5XY0` SE Vx, Vy (R152). -/
def execSeReg (x y : Reg) (s : State) : Result := .next (s.skipIf (s.reg x == s.reg y))

/-- `9XY0` SNE Vx, Vy (R153). -/
def execSneReg (x y : Reg) (s : State) : Result := .next (s.skipIf (s.reg x != s.reg y))

end Sys2Proof.Machine
end

