-- ==== Sys2Proof/Machine/Cycle.lean ====
section
/-! DEFINITION. The Cycle Driver (spec/40_cycle.md R120): halted check, fetch, decode, execute, tick, in that order,
which is also the order of the checks (spec/60_exceptions.md R216). -/

namespace Sys2Proof.Machine

/-- The end of a cycle: the tick, unless the instruction raised a failure (R124). -/
def endCycle : Result → Result
  | .next s => if s.fault.isSome then .next s else .next s.tick
  | .fault r => .fault r
  | .refused r => .refused r

/-- Decode and execute the opcode fetched (R122, R123): an opcode that selects no instruction raises
UnrecognizedOpcode and changes nothing (spec/60_exceptions.md R211). -/
def runOpcode (op : Word) (s : State) : Result :=
  match decode op with
  | some i => endCycle (exec i s)
  | none => failWith (.unrecognizedOpcode op) op s

/-- `cycle()`: a halted core does nothing at all (R129); a fetch outside memory raises FetchFault, with no opcode to
record (R121, spec/60_exceptions.md R214); else the opcode runs. -/
def cycle (s : State) : Result :=
  if s.fault.isSome then .next s
  else
    match fetch s.mem s.pc with
    | some op => runOpcode op s
    | none => .next (s.raise (.fetchFault s.pc) none)

/-- Place an opcode where the next cycle fetches: its two bytes at `PC` and `PC + 1`, high byte first. A halted core
fetches nothing and a `PC` above 4094 fetches nothing either, so the latch is cleared and such a `PC` is set to the
program entry address; nothing else changes. -/
def State.placeOpcode (s : State) (op : Word) : State :=
  let pc : Word := if s.pc.toNat ≤ 4094 then s.pc else 0x200
  { s with
    mem := (s.mem.write pc.toNat (hiByte op)).write (pc.toNat + 1) (loByte op)
    pc := pc
    fault := none }

end Sys2Proof.Machine
end

