-- ==== Sys2Proof/Machine/Step.lean ====
section
/-! DEFINITION. The step of the machine: one `cycle()` (spec/40_cycle.md R120). -/

namespace Sys2Proof.Machine

/-- One `step` event of the host (spec/10_state.md R38). -/
def step (s : State) : Host.Outcome State Fault Refusal := cycle s

/-- `s` with the opcode whose `nbits` low bits are those of `w`, and whose other bits are 0, stored where `step`
fetches its next instruction. Log entry 7. -/
def State.withFetchWord (s : State) (nbits w : Nat) : State := s.placeOpcode (BitVec.ofNat 16 (w % 2 ^ nbits))

end Sys2Proof.Machine
end

