-- ==== Sys2Proof/Machine/HostMoves.lean ====
section
/-! DEFINITION. The host's side (spec/70_reset_and_hazards.md R247): its moves between cycles, the loading of a
program, and what it can read after a failure. A cycle is the one move that is not here: it is the machine's step. -/

namespace Sys2Proof.Machine

/-- `host_mem_write(a, b)`: the port takes addresses 0 to 4095 only (R245, spec/20_memory.md R76). -/
def State.hostMemWrite (s : State) (a : Addr) (b : Byte) : State := { s with mem := s.mem.write a.toNat b }

/-- The keypad with bit `k` set to `pressed`. -/
def keysWith (keys : BitVec 16) (k : Key) (pressed : Bool) : BitVec 16 :=
  if pressed then keys ||| BitVec.twoPow 16 k.val else keys &&& ~~~(BitVec.twoPow 16 k.val)

/-- `host_key_write(k, v)` (R246). -/
def State.hostKeyWrite (s : State) (k : Key) (pressed : Bool) : State := { s with keys := keysWith s.keys k pressed }

/-- `draw_ack` (R248). -/
def State.drawAck (s : State) : State := { s with draw := false }

/-- `sound_ack` (R248). -/
def State.soundAck (s : State) : State := { s with sound := false }

/-- A move of the host other than a step and a read. -/
inductive HostMove where
  | reset
  | memWrite (a : Addr) (b : Byte)
  | keyWrite (k : Key) (pressed : Bool)
  | drawAck
  | soundAck
deriving DecidableEq, Repr

/-- The state after a move (R247). A move is legal between any two cycles, also on a halted core (spec/60_exceptions.md
R215). -/
def State.hostMove (s : State) : HostMove → State
  | .reset => s.doReset
  | .memWrite a b => s.hostMemWrite a b
  | .keyWrite k pressed => s.hostKeyWrite k pressed
  | .drawAck => s.drawAck
  | .soundAck => s.soundAck

/-- The bytes of a program at ascending addresses. -/
def storeBytes : Memory → Nat → List Byte → Memory
  | m, _, [] => m
  | m, a, b :: bs => storeBytes (m.write a b) (a + 1) bs

/-- Loading a program: byte `k` to `MEM[0x200 + k]` (R244). A program above 3584 bytes is no move of the host (R245):
none. -/
def State.loadRom (s : State) (rom : List Byte) : Option State :=
  if rom.length ≤ 3584 then some { s with mem := storeBytes s.mem 0x200 rom } else none

/-- `FB` at a column and a row (spec/10_state.md R30). -/
def State.pixel (s : State) (col : Fin 64) (row : Fin 32) : Bool := Framebuffer.cell s.fb ⟨col.val + 64 * row.val, by omega⟩

/-- The context a failure exposes (spec/60_exceptions.md R225). A FetchFault has no opcode. -/
structure Diagnostics where
  failure : Failure
  opcode : Option Word
  fields : Option Fields
  regs : Vector Byte 16
  stack : Vector Word 16
  pc : Word
  sp : Fin 17
  /-- The framebuffer, for draw failures. -/
  fb : Option Framebuffer
deriving DecidableEq, Repr

/-- The opcode is a `DXYN`. -/
def isDraw (op : Word) : Bool := fieldH op == 0xD

/-- What the host reads of a halted core; none while no failure is latched (spec/60_exceptions.md R225). -/
def State.diagnostics (s : State) : Option Diagnostics :=
  s.fault.map fun l =>
    { failure := l.failure
      opcode := l.op
      fields := l.op.map fieldsOf
      regs := s.v
      stack := s.stack
      pc := s.pc
      sp := s.sp
      fb := if l.op.any isDraw then some s.fb else none }

end Sys2Proof.Machine
end

