-- ==== Sys2Proof/Safety.lean ====
section
/-! DEFINITION. The terms claims are stated in: a run without a failure, the invariants, the states the core and the
host can reach, and what a state shares with another. -/

namespace Sys2Proof.Machine

/-! ### Failures and runs -/

/-- No failure is latched; a core that is not running is halted (spec/60_exceptions.md R215). -/
abbrev State.Running (s : State) : Prop := s.fault = none

/-- `k` steps from `s` end in `t` without a failure. A halted state is never a successful end (spec/60_exceptions.md
R215), so a claim that a run completes is stated with this and not with `Host.Core.run` alone (log entry 1). -/
def Completes (k : Nat) (s t : State) : Prop := core.run k s = .next t ∧ t.Running

/-- The opcode the next cycle fetches (spec/40_cycle.md R121); none outside memory. -/
abbrev State.opcode (s : State) : Option Word := fetch s.mem s.pc

/-- The instruction the next cycle executes. -/
def State.instr (s : State) : Option Instr := s.opcode.bind decode

/-- The opcodes of spec/30_encoding.md R101, by group. -/
def IllegalOpcode (op : Word) : Prop :=
  (op.toNat / 4096 = 0 ∧ op.toNat % 16 ∉ [0x0, 0xE]) ∨
  (op.toNat / 4096 = 8 ∧ op.toNat % 16 ∈ [0x8, 0x9, 0xA, 0xB, 0xC, 0xD, 0xF]) ∨
  (op.toNat / 4096 = 0xE ∧ op.toNat % 256 ∉ [0x9E, 0xA1]) ∨
  (op.toNat / 4096 = 0xF ∧ op.toNat % 256 ∉ [0x07, 0x0A, 0x15, 0x18, 0x1E, 0x29, 0x33, 0x55, 0x65])

/-! ### Invariants -/

/-- The invariant of spec/10_state.md R39 and R42, as far as the state's types leave anything of it to say: memory is in
canonical form (each byte of 0 to 4095 listed at most once), `PC` is at most 0x10FE and every live return address at
most 0x0FFE. -/
structure State.Inv (s : State) : Prop where
  memWf : s.mem.wf = true
  pcBound : s.pc.toNat ≤ 0x10FE
  stackBound : ∀ k : Fin 16, k.val < s.sp.val → s.stack[k].toNat ≤ 0x0FFE

/-- The table of spec/60_exceptions.md R210 as a property of the latch: the failure latched is raised by the instruction
the table names, in the case it names, with the payload it names, and records the opcode fetched (R214). -/
def Failure.Consistent (s : State) : Failure → Option Word → Prop
  | .unrecognizedOpcode op, o => o = some op ∧ decode op = none
  | .graphicsFault _, _ => False
  | .fetchFault pc, o => o = none ∧ pc = s.pc ∧ 4094 < pc.toNat
  | .memoryFault a, o => a = max s.i.toNat 4096 ∧ ∃ op, o = some op ∧
      ((∃ x y n, decode op = some (.drw x y n)) ∨ (∃ x, decode op = some (.ldB x)) ∨
        (∃ x, decode op = some (.storeRegs x)) ∨ ∃ x, decode op = some (.loadRegs x))
  | .stackOverflow, o => s.sp = 16 ∧ ∃ op nnn, o = some op ∧ decode op = some (.call nnn)
  | .stackUnderflow, o => s.sp = 0 ∧ ∃ op u, o = some op ∧ decode op = some (.ret u)
  | .keyIndexFault k, o => 15 < k.toNat ∧ ∃ op x, o = some op ∧ s.reg x = k ∧
      (decode op = some (.skp x) ∨ decode op = some (.sknp x))

/-- The latch, when set, is consistent with the table of failures. -/
def State.LatchConsistent (s : State) : Prop := ∀ l, s.fault = some l → Failure.Consistent s l.failure l.op

/-- The states reachable from reset by cycles and host moves (spec/10_state.md R39, R41; spec/70_reset_and_hazards.md
R247). -/
inductive Reachable : State → Prop where
  | reset : Reachable State.reset
  | cycle {s t : State} : Reachable s → step s = .next t → Reachable t
  | hostMove {s : State} (m : HostMove) : Reachable s → Reachable (s.hostMove m)

/-! ### What two states share -/

/-- Every byte of memory reads the same. -/
def SameMemory (s t : State) : Prop := ∀ a, t.mem.read a = s.mem.read a

/-- Every byte of memory outside the `n` bytes from `lo` on reads the same. -/
def SameMemoryOutside (lo n : Nat) (s t : State) : Prop :=
  ∀ a, (a < lo ∨ lo + n ≤ a) → t.mem.read a = s.mem.read a

/-- Every register but those of the list reads the same. -/
def SameRegsExcept (l : List Reg) (s t : State) : Prop := ∀ r, r ∉ l → t.reg r = s.reg r

/-- The instruction completes by writing to `V[x]`, bit by bit, `f` of the bits of `V[x]` and `V[y]`, and advancing `PC`
by 2; every other register, `VF` included, and everything else stays (spec/43_alu.md R162 to R165). -/
def EndsBitwise (f : Bool → Bool → Bool) (x y : Reg) (s : State) (r : Result) : Prop :=
  ∃ t, r = .next t ∧ (∀ j < 8, (t.reg x).getLsbD j = f ((s.reg x).getLsbD j) ((s.reg y).getLsbD j)) ∧
    SameRegsExcept [x] s t ∧ t.pc = s.pc + 2 ∧ t = { s with v := t.v, pc := t.pc } ∧ SameMemory s t

/-- The registers an instruction may write (spec/10_state.md R22, spec/43_alu.md, 44_index_mem.md, 45_display.md,
46_keypad_timers.md): its destination, and `VF` for the flag writers. -/
def writesReg (r : Reg) : Instr → Prop
  | .cls _ => False
  | .ret _ => False
  | .jp _ => False
  | .call _ => False
  | .seImm _ _ => False
  | .sneImm _ _ => False
  | .seReg _ _ _ => False
  | .ldImm x _ => r = x
  | .addImm x _ => r = x
  | .ldReg x _ => r = x
  | .orReg x _ => r = x
  | .andReg x _ => r = x
  | .xorReg x _ => r = x
  | .addReg x _ => r = x ∨ r = 15
  | .subReg x _ => r = x ∨ r = 15
  | .shr x _ => r = x ∨ r = 15
  | .subnReg x _ => r = x ∨ r = 15
  | .shl x _ => r = x ∨ r = 15
  | .sneReg _ _ _ => False
  | .ldI _ => False
  | .jpV0 _ => False
  | .rnd x _ => r = x
  | .drw _ _ _ => r = 15
  | .skp _ => False
  | .sknp _ => False
  | .ldVxDt x => r = x
  | .ldVxK x => r = x
  | .ldDtVx _ => False
  | .ldStVx _ => False
  | .addI _ => r = 15
  | .ldF _ => False
  | .ldB _ => False
  | .storeRegs _ => False
  | .loadRegs x => r ≤ x

/-- The values `PC` may have after an instruction that raised nothing, from the list of spec/10_state.md R24: `S + 2`
unless the list says otherwise. -/
def nextPc (s : State) (pc : Word) : Instr → Prop
  | .cls _ => pc = s.pc + 2
  | .ret _ => ∃ k : Fin 16, k.val + 1 = s.sp.val ∧ pc = s.stack[k] + 2
  | .jp nnn => pc.toNat = nnn.toNat
  | .call nnn => pc.toNat = nnn.toNat
  | .seImm x nn => pc = if s.reg x = nn then s.pc + 4 else s.pc + 2
  | .sneImm x nn => pc = if s.reg x ≠ nn then s.pc + 4 else s.pc + 2
  | .seReg x y _ => pc = if s.reg x = s.reg y then s.pc + 4 else s.pc + 2
  | .ldImm _ _ => pc = s.pc + 2
  | .addImm _ _ => pc = s.pc + 2
  | .ldReg _ _ => pc = s.pc + 2
  | .orReg _ _ => pc = s.pc + 2
  | .andReg _ _ => pc = s.pc + 2
  | .xorReg _ _ => pc = s.pc + 2
  | .addReg _ _ => pc = s.pc + 2
  | .subReg _ _ => pc = s.pc + 2
  | .shr _ _ => pc = s.pc + 2
  | .subnReg _ _ => pc = s.pc + 2
  | .shl _ _ => pc = s.pc + 2
  | .sneReg x y _ => pc = if s.reg x ≠ s.reg y then s.pc + 4 else s.pc + 2
  | .ldI _ => pc = s.pc + 2
  | .jpV0 nnn => pc.toNat = nnn.toNat + (s.reg 0).toNat
  | .rnd _ _ => pc = s.pc + 2
  | .drw _ _ _ => pc = s.pc + 2
  | .skp x => pc = if s.keys.getLsbD (s.reg x).toNat = true then s.pc + 4 else s.pc + 2
  | .sknp x => pc = if s.keys.getLsbD (s.reg x).toNat = false then s.pc + 4 else s.pc + 2
  | .ldVxDt _ => pc = s.pc + 2
  | .ldVxK _ => pc = if s.keys = 0 then s.pc else s.pc + 2
  | .ldDtVx _ => pc = s.pc + 2
  | .ldStVx _ => pc = s.pc + 2
  | .addI _ => pc = s.pc + 2
  | .ldF _ => pc = s.pc + 2
  | .ldB _ => pc = s.pc + 2
  | .storeRegs _ => pc = s.pc + 2
  | .loadRegs _ => pc = s.pc + 2

/-- The sprite of `DXYN`, as far as `rows` of its rows reach, covers the cell (spec/45_display.md R191). -/
def SpriteCovers (s : State) (x y : Reg) (rows : Nat) (c : Fin 2048) : Prop :=
  ∃ row col, row < rows ∧ col < 8 ∧ (s.mem.read (s.i.toNat + row)).getLsbD (7 - col) = true ∧
    c.val = (((s.reg x).toNat + col) + ((s.reg y).toNat + row) * 64) % 2048

end Sys2Proof.Machine
end

