-- ==== Sys2Proof/Certificates/Slice0/Obligations.lean ====
section
/-! DEFINITION. The statements for the provers. In them `s` is the state before and `t` the state after; an equation
`t = { s with f := t.f, .. }` says that no field but those named differs. -/

open Sys2Proof Sys2Proof.Machine

/-! ### Encoding and decoding (spec/30_encoding.md) -/

/-- Decoding an instruction's opcode gives the instruction back, with every operand at every value its field admits
(R90, R91, R96). The ignored bits of R95, R97 and R100 are operands too (log entry 5). Rests on the spec's D11. -/
def Obligations.DecodeOfEncode : Prop := ∀ i : Instr, i.WellFormed → decode (encode i) = some i

/-- An opcode that decodes is the opcode of the instruction it decodes to, and that instruction is well-formed: no bit
of an opcode is dropped. See log entry 5. -/
def Obligations.EncodeOfDecode : Prop := ∀ (op : Word) (i : Instr), decode op = some i → i.WellFormed ∧ encode i = op

/-- Words written out from the patterns of R96 decode to the instructions they stand for, and two illegal words of R95
and R97 to none. Rests on the spec's D11. -/
def Obligations.SampleWordsDecode : Prop :=
  decode 0x00E0 = some (.cls 0x0E) ∧ decode 0x012E = some (.ret 0x12) ∧ decode 0x1ABC = some (.jp 0xABC) ∧
  decode 0x3A42 = some (.seImm 0xA 0x42) ∧ decode 0x8AB4 = some (.addReg 0xA 0xB) ∧
  decode 0xD12F = some (.drw 1 2 15) ∧ decode 0xE59E = some (.skp 5) ∧ decode 0xF265 = some (.loadRegs 2) ∧
  decode 0x00FF = none ∧ decode 0x8008 = none

/-- The opcode map of R96: an opcode decodes exactly when it selects a row, the instruction it decodes to is one whose
row it selects, and no opcode selects two rows. Rests on the spec's D11. -/
def Obligations.OpcodeMapSelectsTheInstruction : Prop :=
  (∀ op : Word, (∃ i, decode op = some i) ↔ ∃ p ∈ opcodeMap, p.selects op = true) ∧
  (∀ (op : Word) (i : Instr), decode op = some i → i.pattern ∈ opcodeMap ∧ i.pattern.selects op = true) ∧
  ∀ p ∈ opcodeMap, ∀ q ∈ opcodeMap, ∀ op : Word, p.selects op = true → q.selects op = true → p = q

/-- The opcodes that select no instruction are exactly those R101 lists by group. Rests on the spec's D11. -/
def Obligations.IllegalOpcodesSelectNothing : Prop := ∀ op : Word, decode op = none ↔ IllegalOpcode op

/-! ### The cycle (spec/40_cycle.md, spec/60_exceptions.md) -/

/-- When the two bytes at `PC` decode to an instruction, the step of a running core executes that instruction (R120 to
R123), and then ticks unless it raised a failure (R124). See log entry 1. -/
def Obligations.StepRunsTheDecodedInstruction : Prop :=
  ∀ (s t : State) (i : Instr), s.Running → s.pc.toNat ≤ 4094 → i.WellFormed →
    decodeBytes [s.mem.read s.pc.toNat, s.mem.read (s.pc.toNat + 1)] = .ok (i, []) → exec i s = .next t →
    (t.Running → step s = .next t.tick) ∧ (¬ t.Running → step s = .next t)

/-- A fetch above address 4094 latches FetchFault with that `PC`, without an opcode, and changes nothing else (R121,
60_exceptions.md R214; the spec's decision D6). See log entry 1. -/
def Obligations.FetchOutsideMemoryLatches : Prop :=
  ∀ s : State, s.Running → 4094 < s.pc.toNat → step s = .next { s with fault := some ⟨.fetchFault s.pc, none⟩ }

/-- UnrecognizedOpcode (60_exceptions.md R211) is latched, with the raw opcode, by exactly the opcodes of R101, and
nothing but the latch changes. The set of opcodes is the list the spec derives, with its D11; the latch and the opcode
recorded in it are R214 and R35, the spec's D14 and D20; that the failing step is a next state is log entry 1. -/
def Obligations.UnrecognizedOpcodeChangesOnlyTheLatch : Prop :=
  ∀ (s : State) (op : Word), s.Running → s.opcode = some op →
    (IllegalOpcode op → step s = .next { s with fault := some ⟨.unrecognizedOpcode op, some op⟩ }) ∧
    (¬ IllegalOpcode op → ∀ t, step s = .next t → ∀ op' o, t.fault ≠ some ⟨.unrecognizedOpcode op', o⟩)

/-- A halted core does nothing at all (R129; the spec's decision D14). See log entry 1. -/
def Obligations.HaltedStepDoesNothing : Prop := ∀ s : State, ¬ s.Running → step s = .next s

/-- Every step of every state answers a next state: no fault and no refusal. That a failure is a next state with the
latch set is the model's reading (log entry 1). -/
def Obligations.StepAlwaysAnswersNext : Prop := ∀ s : State, ∃ t, step s = .next t

/-- The tick that ends every cycle that raised nothing (R125, R126): each timer loses one unless it is 0, from the
value it has after the instruction, and `SOUND` is set exactly when the sound timer was 1, and is not cleared. -/
def Obligations.TickAfterTheInstruction : Prop :=
  ∀ (s t : State) (i : Instr), s.Running → s.instr = some i → exec i s = .next t → t.Running →
    ∃ u, step s = .next u ∧ u.dt.toNat = t.dt.toNat - 1 ∧ u.st.toNat = t.st.toNat - 1 ∧
      (u.sound = true ↔ t.sound = true ∨ t.st.toNat = 1) ∧
      u = { t with dt := u.dt, st := u.st, sound := u.sound }

/-- A cycle that raises a failure leaves `PC`, `I`, the stack, both timers, `DRAW`, `SOUND` and the keypad as they were:
only the latch, and what R214 says an instruction may have written before its failing access, differ (R124). Rests on
the spec's D20. See log entry 1. -/
def Obligations.FailingCycleDoesNotTick : Prop :=
  ∀ s t : State, s.Running → step s = .next t → ¬ t.Running →
    t = { s with mem := t.mem, v := t.v, fb := t.fb, fault := t.fault }

/-- Every failure but MemoryFault leaves all state but the latch exactly as before the cycle (60_exceptions.md R214).
Rests on the spec's D20. See log entry 1. -/
def Obligations.OnlyMemoryFaultsLeavePartialEffects : Prop :=
  ∀ (s t : State) (l : Latch), s.Running → step s = .next t → t.fault = some l →
    (∀ a, l.failure ≠ .memoryFault a) → t = { s with fault := some l }

/-- The latch records the opcode fetched (60_exceptions.md R214). Rests on the spec's D14, D20. See log entry 1 and
log entry 5. -/
def Obligations.FailureRecordsTheFetchedOpcode : Prop :=
  ∀ (s t : State) (op : Word) (l : Latch), s.Running → s.opcode = some op → step s = .next t → t.fault = some l →
    l.op = some op

/-! ### Invariants (spec/10_state.md R39, R42; spec/60_exceptions.md R210) -/

/-- Every step keeps the latch consistent with the table of R210: a failure is raised by the instruction the table
names, in the case and with the payload it names. Rests on the spec's D5, D6, D7, D8. See log entry 1. -/
def Obligations.LatchConsistentKeptByStep : Prop :=
  ∀ s t : State, s.LatchConsistent → step s = .next t → t.LatchConsistent

/-- Every step keeps memory in canonical form, `PC` at most 0x10FE and every live return address at most 0x0FFE
(10_state.md R39, R42). The canonical form is the model's (log entry 9). -/
def Obligations.InvKeptByStep : Prop := ∀ s t : State, s.Inv → step s = .next t → t.Inv

/-- The state after reset meets both invariants: the bounds of 10_state.md R42, the table of 60_exceptions.md R210 with
no failure latched (the spec's D14), and the canonical form of memory, which is the model's (log entry 9). -/
def Obligations.ResetMeetsTheInvariants : Prop := State.reset.Inv ∧ State.reset.LatchConsistent

/-- Every move of the host (70_reset_and_hazards.md R247) keeps both invariants: the bounds of 10_state.md R42, the table
of 60_exceptions.md R210 and R214 (with the spec's D5, D6, D7, D8), and the canonical form of memory, which is the
model's (log entry 9). -/
def Obligations.HostMovesKeepTheInvariants : Prop :=
  ∀ (s : State) (m : HostMove), s.Inv → s.LatchConsistent → (s.hostMove m).Inv ∧ (s.hostMove m).LatchConsistent

/-- Every state reachable from reset by cycles and host moves meets both invariants: the bounds of 10_state.md R42, the
table of 60_exceptions.md R210 and R214 (with the spec's D5, D6, D7, D8), and the canonical form of memory, which is the
model's (log entry 9). That a failing step is a next state is log entry 1. -/
def Obligations.ReachableStatesMeetTheInvariants : Prop := ∀ s : State, Reachable s → s.Inv ∧ s.LatchConsistent

/-! ### Reset and the host (spec/70_reset_and_hazards.md) -/

/-- The values of the table of 10_state.md R40. Those of `SP`, `I`, the timers, the framebuffer and the flags are the
spec's decision D2, that of the latch D14; the font's bytes are the open parameter (log entry 2). Rests on the spec's
D3. -/
def Obligations.ResetLeavesTheListedValues : Prop :=
  (∀ r, State.reset.reg r = 0) ∧ (∀ (a : Nat) (h : a < 80), State.reset.mem.read a = Config.font ⟨a, h⟩) ∧
  (∀ a, 80 ≤ a → a < 4096 → State.reset.mem.read a = 0) ∧ (∀ k : Fin 16, State.reset.stack[k] = 0) ∧
  (∀ k, State.reset.key k = false) ∧ State.reset.pc.toNat = 0x200 ∧ State.reset.sp.val = 0 ∧
  State.reset.i = 0 ∧ State.reset.dt = 0 ∧ State.reset.st = 0 ∧
  (∀ c, Framebuffer.cell State.reset.fb c = false) ∧ State.reset.draw = false ∧ State.reset.sound = false ∧
  State.reset.fault = none

/-- Reset does not depend on the state before it, is idempotent, and is the only way out of the halted state (R241).
That the model's own draw counter, no state of the spec, stands through a reset is log entry 4; the halted core that
only reset leaves is the spec's D14, and a step of it a next state by log entry 1. -/
def Obligations.ResetMoveForgetsTheState : Prop :=
  (∀ s s' : State, { s.doReset with draws := s'.draws } = s'.doReset) ∧
  (∀ s : State, s.doReset = { State.reset with draws := s.draws }) ∧
  (∀ s : State, s.doReset.doReset = s.doReset) ∧
  (∀ s : State, (s.hostMove .reset).Running) ∧
  (∀ (s : State) (m : HostMove), ¬ s.Running → m ≠ .reset → ¬ (s.hostMove m).Running) ∧
  ∀ s t : State, ¬ s.Running → step s = .next t → ¬ t.Running

/-- The host's moves of R247: a byte written reads back and every other stays; a key written holds and every other
stays; an acknowledgement clears its flag; nothing else changes. Rests on the spec's D1. -/
def Obligations.HostMovesTouchOnlyTheirTarget : Prop :=
  (∀ (s : State) (a : Addr) (b : Byte), (s.hostMemWrite a b).mem.read a.toNat = b ∧
    SameMemoryOutside a.toNat 1 s (s.hostMemWrite a b) ∧
    s.hostMemWrite a b = { s with mem := (s.hostMemWrite a b).mem }) ∧
  (∀ (s : State) (k j : Key) (p : Bool), (s.hostKeyWrite k p).key j = (if j = k then p else s.key j) ∧
    s.hostKeyWrite k p = { s with keys := (s.hostKeyWrite k p).keys }) ∧
  (∀ s : State, s.drawAck = { s with draw := false } ∧ s.soundAck = { s with sound := false })

/-- Loading a program of at most 3584 bytes writes byte `k` to 0x200 + `k` and nothing else; a longer one is no move of
the host (R244, R245; the spec's decision D21). -/
def Obligations.ProgramLoadPlacesTheBytes : Prop :=
  ∀ (s : State) (rom : List Byte),
    (rom.length ≤ 3584 → ∃ t, s.loadRom rom = some t ∧
      (∀ (k : Nat) (h : k < rom.length), t.mem.read (0x200 + k) = rom[k]) ∧
      SameMemoryOutside 0x200 rom.length s t ∧ t = { s with mem := t.mem }) ∧
    (3584 < rom.length → s.loadRom rom = none)

/-! ### Memory (spec/20_memory.md) -/

/-- Memories in canonical form with equal bytes are equal lists: the form represents the 4096 bytes of R61 without
redundancy. The form is the model's. See log entry 9. -/
def Obligations.CanonicalMemoriesWithEqualBytesAreEqual : Prop :=
  ∀ m m' : Memory, m.wf = true → m'.wf = true → (∀ a, m.read a = m'.read a) → m = m'

/-- Bytes stored are fetched big-endian (R63, R73): after a block store of at least two registers inside memory, a
fetch at the old `I` reads `V0 * 256 + V1`. -/
def Obligations.StoredRegistersAreFetched : Prop :=
  ∀ (s : State) (x : Reg), 1 ≤ x.val → s.i.toNat + x.val ≤ 4095 →
    ∃ t op, exec (.storeRegs x) s = .next t ∧ fetch t.mem s.i = some op ∧
      op.toNat = (s.reg 0).toNat * 256 + (s.reg 1).toNat

/-! ### Display (spec/45_display.md) -/

/-- `00E0` (R190): every cell 0, `DRAW` 1, `PC` advanced by 2, and nothing else changed. -/
def Obligations.ClsBlanksTheScreen : Prop :=
  ∀ (s : State) (u : Byte), ∃ t, exec (.cls u) s = .next t ∧ (∀ c, Framebuffer.cell t.fb c = false) ∧
    t.draw = true ∧ t.pc = s.pc + 2 ∧ t = { s with fb := t.fb, draw := t.draw, pc := t.pc } ∧ SameMemory s t

/-- `DXYN` inside memory (R191): exactly the cells the sprite covers are toggled, `VF` is 1 exactly when one of them was
set, `DRAW` is 1, `PC` advances by 2, and nothing else changes. The sampling of the coordinates is the spec's decision
D13. Rests on the spec's D4. -/
def Obligations.DrwDrawsTheSprite : Prop :=
  ∀ (s : State) (x y : Reg) (n : Nat), n < 16 → n = 0 ∨ s.i.toNat + n ≤ 4096 →
    ∃ t, exec (.drw x y n) s = .next t ∧
      (∀ c, SpriteCovers s x y n c → Framebuffer.cell t.fb c = !Framebuffer.cell s.fb c) ∧
      (∀ c, ¬ SpriteCovers s x y n c → Framebuffer.cell t.fb c = Framebuffer.cell s.fb c) ∧
      ((∃ c, SpriteCovers s x y n c ∧ Framebuffer.cell s.fb c = true) → t.reg 15 = 1) ∧
      ((¬ ∃ c, SpriteCovers s x y n c ∧ Framebuffer.cell s.fb c = true) → t.reg 15 = 0) ∧
      SameRegsExcept [15] s t ∧ t.draw = true ∧ t.pc = s.pc + 2 ∧
      t = { s with fb := t.fb, v := t.v, draw := t.draw, pc := t.pc } ∧ SameMemory s t

/-- `DXYN` reaching past memory (R191, 44_index_mem.md R186): the rows that lie in memory stay drawn, the first address
outside is latched, and nothing else changes. Rests on the spec's D5, D20. See log entry 1. -/
def Obligations.DrwPastMemoryLatches : Prop :=
  ∀ (s : State) (x y : Reg) (n : Nat), n < 16 → n ≠ 0 → 4096 < s.i.toNat + n →
    ∃ t, exec (.drw x y n) s = .next t ∧
      t.fault = some ⟨.memoryFault (max s.i.toNat 4096), some (encode (.drw x y n))⟩ ∧
      (∀ c, SpriteCovers s x y (4096 - s.i.toNat) c → Framebuffer.cell t.fb c = !Framebuffer.cell s.fb c) ∧
      (∀ c, ¬ SpriteCovers s x y (4096 - s.i.toNat) c → Framebuffer.cell t.fb c = Framebuffer.cell s.fb c) ∧
      t = { s with fb := t.fb, fault := t.fault } ∧ SameMemory s t

/-! ### Control transfer (spec/41_flow.md) -/

/-- `00EE` with a return address held (R140): it is popped, `PC` is that address plus 2, and nothing else changes. -/
def Obligations.RetResumesAfterTheCall : Prop :=
  ∀ (s : State) (u : Byte) (k : Fin 16), k.val + 1 = s.sp.val →
    ∃ t, exec (.ret u) s = .next t ∧ t.sp.val = k.val ∧ t.pc = s.stack[k] + 2 ∧
      t = { s with sp := t.sp, pc := t.pc } ∧ SameMemory s t

/-- The two stack failures (R140, R142; the spec's decision D7): a return with none held and a call with sixteen held
change nothing but the latch. See log entry 1. -/
def Obligations.StackFailuresLatch : Prop :=
  ∀ (s : State) (u : Byte) (nnn : Addr),
    (s.sp.val = 0 →
      exec (.ret u) s = .next { s with fault := some ⟨.stackUnderflow, some (encode (.ret u))⟩ }) ∧
    (s.sp.val = 16 →
      exec (.call nnn) s = .next { s with fault := some ⟨.stackOverflow, some (encode (.call nnn))⟩ })

/-- `1NNN` (R141) sets `PC` to `NNN` and `BNNN` (R143) to `NNN + V0`, not reduced to 12 bits, and nothing else; a target
above 4094 makes the next cycle's fetch fail. Rests on the spec's D6. See log entry 1. -/
def Obligations.JumpsSetThePc : Prop :=
  ∀ (s : State) (nnn : Addr),
    (∃ t, exec (.jp nnn) s = .next t ∧ t.pc.toNat = nnn.toNat ∧ t = { s with pc := t.pc } ∧ SameMemory s t ∧
      (t.Running → 4094 < t.pc.toNat → step t = .next { t with fault := some ⟨.fetchFault t.pc, none⟩ })) ∧
    (∃ t, exec (.jpV0 nnn) s = .next t ∧ t.pc.toNat = nnn.toNat + (s.reg 0).toNat ∧ t = { s with pc := t.pc } ∧
      SameMemory s t ∧
      (t.Running → 4094 < t.pc.toNat → step t = .next { t with fault := some ⟨.fetchFault t.pc, none⟩ }))

/-- `2NNN` with fewer than sixteen return addresses held (R142): its own address is pushed, `PC` is `NNN`, and nothing
else changes. -/
def Obligations.CallPushesItsOwnAddress : Prop :=
  ∀ (s : State) (nnn : Addr) (k : Fin 16), k.val = s.sp.val →
    ∃ t, exec (.call nnn) s = .next t ∧ t.stack[k] = s.pc ∧ (∀ j : Fin 16, j ≠ k → t.stack[j] = s.stack[j]) ∧
      t.sp.val = k.val + 1 ∧ t.pc.toNat = nnn.toNat ∧
      t = { s with stack := t.stack, sp := t.sp, pc := t.pc } ∧ SameMemory s t

/-- A call and a return resume at the instruction after the call, with everything but the stale stack entry as before
the call (R140: "the net effect resumes at the instruction after the call"); the stale entry holds the call's address. -/
def Obligations.CallThenRetResumes : Prop :=
  ∀ (s : State) (nnn : Addr) (u : Byte), s.sp.val < 16 →
    ∃ t w, exec (.call nnn) s = .next t ∧ exec (.ret u) t = .next w ∧
      (∀ j : Fin 16, j.val ≠ s.sp.val → w.stack[j] = s.stack[j]) ∧
      (∀ j : Fin 16, j.val = s.sp.val → w.stack[j] = s.pc) ∧
      w = { s with stack := w.stack, pc := s.pc + 2 }

/-! ### Skips (spec/42_skip.md, spec/46_keypad_timers.md) -/

/-- `3XNN` (R150) and `4XNN` (R151): `PC` advances by 4 or 2, and nothing else changes. -/
def Obligations.SkipsOnImmediates : Prop :=
  ∀ (s : State) (x : Reg) (nn : Byte),
    (∃ t, exec (.seImm x nn) s = .next t ∧ t.pc = (if s.reg x = nn then s.pc + 4 else s.pc + 2) ∧
      t = { s with pc := t.pc } ∧ SameMemory s t) ∧
    (∃ t, exec (.sneImm x nn) s = .next t ∧ t.pc = (if s.reg x ≠ nn then s.pc + 4 else s.pc + 2) ∧
      t = { s with pc := t.pc } ∧ SameMemory s t)

/-- `5XY0` (R152) and `9XY0` (R153), for every value of the ignored low nibble. -/
def Obligations.SkipsOnRegisters : Prop :=
  ∀ (s : State) (x y : Reg) (u : Nibble),
    (∃ t, exec (.seReg x y u) s = .next t ∧ t.pc = (if s.reg x = s.reg y then s.pc + 4 else s.pc + 2) ∧
      t = { s with pc := t.pc } ∧ SameMemory s t) ∧
    (∃ t, exec (.sneReg x y u) s = .next t ∧ t.pc = (if s.reg x ≠ s.reg y then s.pc + 4 else s.pc + 2) ∧
      t = { s with pc := t.pc } ∧ SameMemory s t)

/-- `EX9E` (R200) and `EXA1` (R201) when `V[x]` names a key: `PC` advances by 4 or 2 by the state of that key, and
nothing else changes. -/
def Obligations.KeySkipsOnTheKeyState : Prop :=
  ∀ (s : State) (x : Reg) (k : Key), k.val = (s.reg x).toNat →
    (∃ t, exec (.skp x) s = .next t ∧ t.pc = (if s.key k = true then s.pc + 4 else s.pc + 2) ∧
      t = { s with pc := t.pc } ∧ SameMemory s t) ∧
    (∃ t, exec (.sknp x) s = .next t ∧ t.pc = (if s.key k = false then s.pc + 4 else s.pc + 2) ∧
      t = { s with pc := t.pc } ∧ SameMemory s t)

/-- `EX9E` and `EXA1` with `V[x]` above 15 latch KeyIndexFault with that value and change nothing else (R200, R201; the
spec's decision D8). See log entry 1. -/
def Obligations.KeySkipAboveFifteenLatches : Prop :=
  ∀ (s : State) (x : Reg), 15 < (s.reg x).toNat →
    exec (.skp x) s = .next { s with fault := some ⟨.keyIndexFault (s.reg x), some (encode (.skp x))⟩ } ∧
    exec (.sknp x) s = .next { s with fault := some ⟨.keyIndexFault (s.reg x), some (encode (.sknp x))⟩ }

/-! ### Registers (spec/43_alu.md) -/

/-- `6XNN` (R160) and `7XNN` (R161): the register's new value, no flag, and nothing else changed. -/
def Obligations.ImmediateLoadAndAdd : Prop :=
  ∀ (s : State) (x : Reg) (nn : Byte),
    (∃ t, exec (.ldImm x nn) s = .next t ∧ t.reg x = nn ∧ SameRegsExcept [x] s t ∧ t.pc = s.pc + 2 ∧
      t = { s with v := t.v, pc := t.pc } ∧ SameMemory s t) ∧
    (∃ t, exec (.addImm x nn) s = .next t ∧ (t.reg x).toNat = ((s.reg x).toNat + nn.toNat) % 256 ∧
      SameRegsExcept [x] s t ∧ t.pc = s.pc + 2 ∧ t = { s with v := t.v, pc := t.pc } ∧ SameMemory s t)

/-- `8XY0` to `8XY3` (R162 to R165), bit by bit: the destination alone changes, `VF` included in what does not. Rests on
the spec's D4. -/
def Obligations.CopyAndLogic : Prop :=
  ∀ (s : State) (x y : Reg),
    EndsBitwise (fun _ b => b) x y s (exec (.ldReg x y) s) ∧
    EndsBitwise (fun a b => a || b) x y s (exec (.orReg x y) s) ∧
    EndsBitwise (fun a b => a && b) x y s (exec (.andReg x y) s) ∧
    EndsBitwise (fun a b => a != b) x y s (exec (.xorReg x y) s)

/-- `8XY4` (R166, R173): the sum modulo 256 and, unless the destination is `VF`, the carry in `VF`, both of the operands
before the instruction. Rests on the spec's D4, D12. -/
def Obligations.AddSetsTheCarry : Prop :=
  ∀ (s : State) (x y : Reg), ∃ t, exec (.addReg x y) s = .next t ∧
    (t.reg x).toNat = ((s.reg x).toNat + (s.reg y).toNat) % 256 ∧
    (x ≠ 15 → t.reg 15 = if (s.reg x).toNat + (s.reg y).toNat > 255 then 1 else 0) ∧
    SameRegsExcept [x, 15] s t ∧ t.pc = s.pc + 2 ∧ t = { s with v := t.v, pc := t.pc } ∧ SameMemory s t

/-- `8XY5` (R167) and `8XY7` (R169): the difference modulo 256 and, unless the destination is `VF`, 1 in `VF` when there
is no borrow and 0 when there is. Rests on the spec's D4, D12. -/
def Obligations.SubtractionsSetNotBorrow : Prop :=
  ∀ (s : State) (x y : Reg),
    (∃ t, exec (.subReg x y) s = .next t ∧
      ((t.reg x).toNat : Int) = (((s.reg x).toNat : Int) - (s.reg y).toNat) % 256 ∧
      (x ≠ 15 → t.reg 15 = if (s.reg y).toNat > (s.reg x).toNat then 0 else 1) ∧
      SameRegsExcept [x, 15] s t ∧ t.pc = s.pc + 2 ∧ t = { s with v := t.v, pc := t.pc } ∧ SameMemory s t) ∧
    (∃ t, exec (.subnReg x y) s = .next t ∧
      ((t.reg x).toNat : Int) = (((s.reg y).toNat : Int) - (s.reg x).toNat) % 256 ∧
      (x ≠ 15 → t.reg 15 = if (s.reg x).toNat > (s.reg y).toNat then 0 else 1) ∧
      SameRegsExcept [x, 15] s t ∧ t.pc = s.pc + 2 ∧ t = { s with v := t.v, pc := t.pc } ∧ SameMemory s t)

/-- `8XY6` (R168) and `8XYE` (R170): `V[x]` shifted by one and, unless the destination is `VF`, the bit shifted out in
`VF`, for every value of the ignored y field. Rests on the spec's D4, D12, D23. -/
def Obligations.ShiftsSetTheBitOut : Prop :=
  ∀ (s : State) (x : Reg) (u : Nibble),
    (∃ t, exec (.shr x u) s = .next t ∧ (t.reg x).toNat = (s.reg x).toNat / 2 ∧
      (x ≠ 15 → (t.reg 15).toNat = (s.reg x).toNat % 2) ∧
      SameRegsExcept [x, 15] s t ∧ t.pc = s.pc + 2 ∧ t = { s with v := t.v, pc := t.pc } ∧ SameMemory s t) ∧
    (∃ t, exec (.shl x u) s = .next t ∧ (t.reg x).toNat = (s.reg x).toNat * 2 % 256 ∧
      (x ≠ 15 → (t.reg 15).toNat = (s.reg x).toNat / 128) ∧
      SameRegsExcept [x, 15] s t ∧ t.pc = s.pc + 2 ∧ t = { s with v := t.v, pc := t.pc } ∧ SameMemory s t)

/-- `CXNN` (R171): the byte drawn, a free value of the draw's number, masked by `NN`; the next draw is another one.
Nothing is said of the byte (log entry 4). Rests on the spec's D4, D15. -/
def Obligations.RandomByteIsMasked : Prop :=
  ∀ (s : State) (x : Reg) (nn : Byte), ∃ t, exec (.rnd x nn) s = .next t ∧
    t.reg x = Config.rnd s.draws &&& nn ∧ t.reg x &&& ~~~nn = 0 ∧ t.draws = s.draws + 1 ∧
    SameRegsExcept [x] s t ∧ t.pc = s.pc + 2 ∧ t = { s with v := t.v, pc := t.pc, draws := t.draws } ∧ SameMemory s t

/-! ### Index register and memory transfer (spec/44_index_mem.md) -/

/-- `ANNN` (R180), `FX29` (R182) and `FX1E` (R181): the new `I`, and for `FX1E` alone `VF`, 1 exactly when the unreduced
sum is above 0xFFF. Rests on the spec's D4, D12. -/
def Obligations.IndexArithmetic : Prop :=
  ∀ (s : State) (x : Reg) (nnn : Addr),
    (∃ t, exec (.ldI nnn) s = .next t ∧ t.i.toNat = nnn.toNat ∧ t.pc = s.pc + 2 ∧
      t = { s with i := t.i, pc := t.pc } ∧ SameMemory s t) ∧
    (∃ t, exec (.ldF x) s = .next t ∧ t.i.toNat = (s.reg x).toNat * 5 ∧ t.pc = s.pc + 2 ∧
      t = { s with i := t.i, pc := t.pc } ∧ SameMemory s t) ∧
    (∃ t, exec (.addI x) s = .next t ∧ t.i.toNat = (s.i.toNat + (s.reg x).toNat) % 65536 ∧
      t.reg 15 = (if s.i.toNat + (s.reg x).toNat > 0xFFF then 1 else 0) ∧ SameRegsExcept [15] s t ∧
      t.pc = s.pc + 2 ∧ t = { s with v := t.v, i := t.i, pc := t.pc } ∧ SameMemory s t)

/-- `FX33` inside memory (R183): the three decimal digits at `I`, `I + 1` and `I + 2`, and nothing else changed. Rests
on the spec's D4. -/
def Obligations.BcdStoresThreeDigits : Prop :=
  ∀ (s : State) (x : Reg), s.i.toNat + 2 ≤ 4095 → ∃ t, exec (.ldB x) s = .next t ∧
    (t.mem.read s.i.toNat).toNat = (s.reg x).toNat / 100 ∧
    (t.mem.read (s.i.toNat + 1)).toNat = (s.reg x).toNat / 10 % 10 ∧
    (t.mem.read (s.i.toNat + 2)).toNat = (s.reg x).toNat % 10 ∧
    SameMemoryOutside s.i.toNat 3 s t ∧ t.pc = s.pc + 2 ∧ t = { s with mem := t.mem, pc := t.pc }

/-- `FX33` reaching past memory (R183, R186): the digits inside memory stay written, the first address outside is
latched, and nothing else changes. Rests on the spec's D5, D20. See log entry 1. -/
def Obligations.BcdPastMemoryLatches : Prop :=
  ∀ (s : State) (x : Reg), 4095 < s.i.toNat + 2 → ∃ t, exec (.ldB x) s = .next t ∧
    t.fault = some ⟨.memoryFault (max s.i.toNat 4096), some (encode (.ldB x))⟩ ∧
    (s.i.toNat ≤ 4095 → (t.mem.read s.i.toNat).toNat = (s.reg x).toNat / 100) ∧
    (s.i.toNat + 1 ≤ 4095 → (t.mem.read (s.i.toNat + 1)).toNat = (s.reg x).toNat / 10 % 10) ∧
    SameMemoryOutside s.i.toNat (4096 - s.i.toNat) s t ∧ t = { s with mem := t.mem, fault := t.fault }

/-- `FX55` inside memory (R184): `V0` to `V[x]` at ascending addresses from `I`, `I` advanced by `x + 1`, and nothing
else changed. Rests on the spec's D4. -/
def Obligations.BlockStoreStoresTheRegisters : Prop :=
  ∀ (s : State) (x : Reg), s.i.toNat + x.val ≤ 4095 → ∃ t, exec (.storeRegs x) s = .next t ∧
    (∀ k : Reg, k ≤ x → t.mem.read (s.i.toNat + k.val) = s.reg k) ∧
    SameMemoryOutside s.i.toNat (x.val + 1) s t ∧ t.i.toNat = s.i.toNat + x.val + 1 ∧ t.pc = s.pc + 2 ∧
    t = { s with mem := t.mem, i := t.i, pc := t.pc }

/-- `FX55` reaching past memory (R184, R186): the bytes inside memory stay written, the first address outside is
latched, and nothing else changes. Rests on the spec's D5, D20. See log entry 1. -/
def Obligations.BlockStorePastMemoryLatches : Prop :=
  ∀ (s : State) (x : Reg), 4095 < s.i.toNat + x.val → ∃ t, exec (.storeRegs x) s = .next t ∧
    t.fault = some ⟨.memoryFault (max s.i.toNat 4096), some (encode (.storeRegs x))⟩ ∧
    (∀ k : Reg, k ≤ x → s.i.toNat + k.val ≤ 4095 → t.mem.read (s.i.toNat + k.val) = s.reg k) ∧
    SameMemoryOutside s.i.toNat (4096 - s.i.toNat) s t ∧ t = { s with mem := t.mem, fault := t.fault }

/-- `FX65` inside memory (R185): `V0` to `V[x]` loaded from ascending addresses from `I`, `I` advanced by `x + 1`, and
nothing else changed. Rests on the spec's D4. -/
def Obligations.BlockLoadLoadsTheRegisters : Prop :=
  ∀ (s : State) (x : Reg), s.i.toNat + x.val ≤ 4095 → ∃ t, exec (.loadRegs x) s = .next t ∧
    (∀ k : Reg, k ≤ x → t.reg k = s.mem.read (s.i.toNat + k.val)) ∧ (∀ k : Reg, x < k → t.reg k = s.reg k) ∧
    t.i.toNat = s.i.toNat + x.val + 1 ∧ t.pc = s.pc + 2 ∧ t = { s with v := t.v, i := t.i, pc := t.pc } ∧ SameMemory s t

/-- `FX65` reaching past memory (R185, R186): the registers before the failing access stay loaded, the first address
outside is latched, and nothing else changes. Rests on the spec's D5, D20. See log entry 1. -/
def Obligations.BlockLoadPastMemoryLatches : Prop :=
  ∀ (s : State) (x : Reg), 4095 < s.i.toNat + x.val → ∃ t, exec (.loadRegs x) s = .next t ∧
    t.fault = some ⟨.memoryFault (max s.i.toNat 4096), some (encode (.loadRegs x))⟩ ∧
    (∀ k : Reg, s.i.toNat + k.val ≤ 4095 → t.reg k = s.mem.read (s.i.toNat + k.val)) ∧
    (∀ k : Reg, 4095 < s.i.toNat + k.val → t.reg k = s.reg k) ∧
    t = { s with v := t.v, fault := t.fault } ∧ SameMemory s t

/-- A block store that raised nothing, then a block load from the same address by whatever state holds that memory,
restores the registers stored (R184, R185). -/
def Obligations.BlockStoreThenLoadRestores : Prop :=
  ∀ (s t u : State) (x : Reg), exec (.storeRegs x) s = .next t → t.Running → u.mem = t.mem → u.i = s.i →
    ∃ w, exec (.loadRegs x) u = .next w ∧ ∀ k : Reg, k ≤ x → w.reg k = s.reg k

/-! ### Keypad and timers (spec/46_keypad_timers.md) -/

/-- `FX0A` (R202): with no key pressed nothing at all changes; else `V[x]` is the index of a pressed key, which one
being the open parameter (log entry 3), and nothing else changes. Rests on the spec's D9, D10. -/
def Obligations.KeyWaitPollsTheKeypad : Prop :=
  ∀ (s : State) (x : Reg),
    ((∀ k, s.key k = false) → exec (.ldVxK x) s = .next s) ∧
    ((∃ k, s.key k = true) → ∃ t k, exec (.ldVxK x) s = .next t ∧ s.key k = true ∧ (t.reg x).toNat = k.val ∧
      SameRegsExcept [x] s t ∧ t.pc = s.pc + 2 ∧ t = { s with v := t.v, pc := t.pc } ∧ SameMemory s t)

/-- `FX07` (R203), `FX15` (R204) and `FX18` (R205), before the tick: a register or a timer is set, and nothing else
changes. Rests on the spec's D4. -/
def Obligations.TimerMoves : Prop :=
  ∀ (s : State) (x : Reg),
    (∃ t, exec (.ldVxDt x) s = .next t ∧ t.reg x = s.dt ∧ SameRegsExcept [x] s t ∧ t.pc = s.pc + 2 ∧
      t = { s with v := t.v, pc := t.pc } ∧ SameMemory s t) ∧
    (∃ t, exec (.ldDtVx x) s = .next t ∧ t.dt = s.reg x ∧ t.pc = s.pc + 2 ∧
      t = { s with dt := t.dt, pc := t.pc } ∧ SameMemory s t) ∧
    (∃ t, exec (.ldStVx x) s = .next t ∧ t.st = s.reg x ∧ t.pc = s.pc + 2 ∧
      t = { s with st := t.st, pc := t.pc } ∧ SameMemory s t)

/-- The same instructions through the tick of their own cycle (R203 to R205, 40_cycle.md R125, R126): a delay is read
before its tick, and a timer written loses one in the same cycle. -/
def Obligations.TimerInstructionsThroughTheTick : Prop :=
  ∀ (s : State) (x : Reg), s.Running →
    (s.instr = some (.ldVxDt x) → ∃ u, step s = .next u ∧ u.reg x = s.dt ∧ u.dt.toNat = s.dt.toNat - 1) ∧
    (s.instr = some (.ldDtVx x) → ∃ u, step s = .next u ∧ u.dt.toNat = (s.reg x).toNat - 1) ∧
    (s.instr = some (.ldStVx x) → ∃ u, step s = .next u ∧ u.st.toNat = (s.reg x).toNat - 1 ∧
      (u.sound = true ↔ s.sound = true ∨ (s.reg x).toNat = 1))

/-! ### The whole machine -/

/-- No instruction changes a register that is neither its destination nor, for the seven flag writers, `VF`
(10_state.md R22). -/
def Obligations.RegistersWrittenOnlyByTheirInstructions : Prop :=
  ∀ (i : Instr) (s t : State) (r : Reg), exec i s = .next t → ¬ writesReg r i → t.reg r = s.reg r

/-- The four storage spaces stay apart (20_memory.md R60, R69): memory is written only by `FX33` and `FX55`, the
framebuffer only by `00E0` and `DXYN` (10_state.md R30), and `DRAW` by these alone (R31, 40_cycle.md R127), the stack
only by `2NNN` (10_state.md R26), and the keypad by no instruction (R29). -/
def Obligations.SpacesWrittenOnlyByTheirInstructions : Prop :=
  ∀ (i : Instr) (s t : State), exec i s = .next t →
    ((∀ x, i ≠ .ldB x) → (∀ x, i ≠ .storeRegs x) → t.mem = s.mem) ∧
    ((∀ u, i ≠ .cls u) → (∀ x y n, i ≠ .drw x y n) → t.fb = s.fb ∧ t.draw = s.draw) ∧
    ((∀ nnn, i ≠ .call nnn) → t.stack = s.stack) ∧
    t.keys = s.keys

/-- How each instruction changes `PC`, the complete list of 10_state.md R24; a failure leaves it. Rests on the spec's
D4, D16. See log entry 1. -/
def Obligations.PcFollowsTheList : Prop :=
  ∀ (i : Instr) (s t : State), s.Running → exec i s = .next t →
    (t.Running → nextPc s t.pc i) ∧ (¬ t.Running → t.pc = s.pc)

/-- The core never clears `DRAW` or `SOUND`, never writes the keypad, and never clears the latch
(70_reset_and_hazards.md R248, 10_state.md R29, 60_exceptions.md R215). Rests on the spec's D14, D22. See log entry 1.
-/
def Obligations.CoreNeverClearsTheOutputFlags : Prop :=
  ∀ s t : State, step s = .next t →
    (s.draw = true → t.draw = true) ∧ (s.sound = true → t.sound = true) ∧ t.keys = s.keys ∧
    (s.fault ≠ none → t.fault = s.fault)

/-- Nothing but `ST` and `SOUND` depends on `ST` and `SOUND`: no instruction reads the sound timer (10_state.md R28). -/
def Obligations.SoundTimerIsNeverRead : Prop :=
  ∀ (s t : State) (st : Byte) (sound : Bool), step s = .next t →
    ∃ t', step { s with st := st, sound := sound } = .next t' ∧ t' = { t with st := t'.st, sound := t'.sound }
end

