-- ==== Sys2Proof/Laws/Display.lean ====
section
/-! SUPPORT. What drawing a sprite does (spec/45_display.md R191): a cell is toggled exactly when the sprite covers it,
and a collision is recorded exactly when a covered cell was set. A sprite of at most 32 rows toggles no cell twice. -/

namespace Sys2Proof.Machine

/-! ### One cell -/

theorem Framebuffer.cell_toggle_same (fb : Framebuffer) (c : Fin 2048) :
    Framebuffer.cell (Framebuffer.toggle fb c) c = !Framebuffer.cell fb c := by
  unfold Framebuffer.cell Framebuffer.toggle
  rw [Vector.getElem_set_self, BitVec.getLsbD_xor, BitVec.getLsbD_twoPow]
  have : c.val % 64 < 64 := Nat.mod_lt _ (by decide)
  simp [this]

theorem Framebuffer.cell_toggle_other {fb : Framebuffer} {c c' : Fin 2048} (h : c' ≠ c) :
    Framebuffer.cell (Framebuffer.toggle fb c) c' = Framebuffer.cell fb c' := by
  unfold Framebuffer.cell Framebuffer.toggle
  have hne : c'.val ≠ c.val := fun e => h (Fin.ext e)
  by_cases hr : c.val / 64 = c'.val / 64
  · have hm : ¬ c.val % 64 = c'.val % 64 := by omega
    simp only [hr, Vector.getElem_set_self, BitVec.getLsbD_xor, BitVec.getLsbD_twoPow]
    simp [hm]
  · rw [Vector.getElem_set_ne _ _ hr]

theorem Framebuffer.cell_blank (c : Fin 2048) : Framebuffer.cell Framebuffer.blank c = false := by
  simp [Framebuffer.cell, Framebuffer.blank]

/-! ### A list of cells -/

/-- Toggle a cell and record a collision. -/
def hitCell (cv : Canvas) (c : Fin 2048) : Canvas := (Framebuffer.toggle cv.1 c, cv.2 || Framebuffer.cell cv.1 c)

theorem hitCells_cell {cs : List (Fin 2048)} (hn : cs.Nodup) (cv : Canvas) (c : Fin 2048) :
    Framebuffer.cell (cs.foldl hitCell cv).1 c = (Framebuffer.cell cv.1 c ^^ decide (c ∈ cs)) := by
  induction cs generalizing cv with
  | nil => simp
  | cons d cs ih =>
    rw [List.foldl_cons, ih hn.of_cons]
    have hd := (List.nodup_cons.1 hn).1
    by_cases h : c = d
    · subst h
      simp [hitCell, Framebuffer.cell_toggle_same, hd]
    · simp [hitCell, Framebuffer.cell_toggle_other h, h]

theorem hitCells_hit {cs : List (Fin 2048)} (hn : cs.Nodup) (cv : Canvas) :
    (cs.foldl hitCell cv).2 = (cv.2 || cs.any (Framebuffer.cell cv.1)) := by
  induction cs generalizing cv with
  | nil => simp
  | cons d cs ih =>
    rw [List.foldl_cons, ih hn.of_cons, List.any_cons]
    have hd := (List.nodup_cons.1 hn).1
    have e : cs.any (Framebuffer.cell (hitCell cv d).1) = cs.any (Framebuffer.cell cv.1) := by
      apply Bool.eq_iff_iff.2
      simp only [List.any_eq_true]
      refine exists_congr fun c => and_congr_right fun hc => ?_
      have hcd : c ≠ d := fun e => hd (by rwa [← e])
      rw [hitCell, Framebuffer.cell_toggle_other hcd]
    rw [e, hitCell, Bool.or_assoc]

/-! ### The cells of a sprite -/

/-- The cells a sprite row toggles, in order. -/
def rowCells (vx vy : Byte) (row : Nat) (b : Byte) : List (Fin 2048) :=
  ((List.range 8).filter (spriteBit b)).map (spriteCell vx vy row)

/-- The cells the rows from `row` on toggle, in order. -/
def spriteCells (vx vy : Byte) : Nat → List Byte → List (Fin 2048)
  | _, [] => []
  | row, b :: bs => rowCells vx vy row b ++ spriteCells vx vy (row + 1) bs

theorem foldl_drawBit (vx vy : Byte) (row : Nat) (b : Byte) (cols : List Nat) (cv : Canvas) :
    cols.foldl (drawBit vx vy row b) cv = ((cols.filter (spriteBit b)).map (spriteCell vx vy row)).foldl hitCell cv := by
  induction cols generalizing cv with
  | nil => rfl
  | cons col cols ih =>
    rw [List.foldl_cons, ih]
    by_cases h : spriteBit b col = true
    · rw [List.filter_cons_of_pos h, List.map_cons, List.foldl_cons, drawBit, if_pos h, hitCell]
    · rw [List.filter_cons_of_neg h, drawBit, if_neg h]

/-- Drawing is toggling the sprite's cells in order. -/
theorem drawRows_eq (vx vy : Byte) (row : Nat) (bs : List Byte) (cv : Canvas) :
    drawRows vx vy row bs cv = (spriteCells vx vy row bs).foldl hitCell cv := by
  induction bs generalizing row cv with
  | nil => rfl
  | cons b bs ih => rw [drawRows, ih, spriteCells, List.foldl_append, drawRow, foldl_drawBit, rowCells]

theorem mem_spriteCells {vx vy : Byte} {row : Nat} {bs : List Byte} {c : Fin 2048} :
    c ∈ spriteCells vx vy row bs ↔
      ∃ k col, ∃ h : k < bs.length, col < 8 ∧ spriteBit bs[k] col = true ∧ c = spriteCell vx vy (row + k) col := by
  induction bs generalizing row with
  | nil => simp [spriteCells]
  | cons b bs ih =>
    rw [spriteCells, List.mem_append, ih]
    constructor
    · rintro (h | ⟨k, col, hk, hc, hb, rfl⟩)
      · simp only [rowCells, List.mem_map, List.mem_filter, List.mem_range] at h
        obtain ⟨col, ⟨hc, hb⟩, rfl⟩ := h
        exact ⟨0, col, by simp, hc, by simpa using hb, rfl⟩
      · exact ⟨k + 1, col, by simpa using hk, hc, by simpa using hb, by congr 1; omega⟩
    · rintro ⟨k, col, hk, hc, hb, rfl⟩
      cases k with
      | zero =>
        left
        simp only [rowCells, List.mem_map, List.mem_filter, List.mem_range]
        exact ⟨col, ⟨hc, by simpa using hb⟩, rfl⟩
      | succ k => exact Or.inr ⟨k, col, by simpa using hk, hc, by simpa using hb, by congr 1; omega⟩

/-- Two bits of a sprite of at most 32 rows lie on different cells (spec/45_display.md R191 (c)). -/
theorem spriteCell_inj {vx vy : Byte} {r r' col col' : Nat} (hc : col < 8) (hc' : col' < 8)
    (hr : r' < r + 32) (hr' : r < r' + 32) (h : spriteCell vx vy r col = spriteCell vx vy r' col') :
    r = r' ∧ col = col' := by
  have h := congrArg Fin.val h
  simp only [spriteCell] at h
  omega

theorem nodup_spriteCells (vx vy : Byte) (row : Nat) {bs : List Byte} (h : bs.length ≤ 32) :
    (spriteCells vx vy row bs).Nodup := by
  induction bs generalizing row with
  | nil => exact List.nodup_nil
  | cons b bs ih =>
    rw [List.length_cons] at h
    rw [spriteCells, List.nodup_append]
    refine ⟨?_, ih _ (by omega), ?_⟩
    · refine List.Nodup.map_on ?_ (List.nodup_range.filter _)
      intro c hc c' hc' e
      simp only [List.mem_filter, List.mem_range] at hc hc'
      exact (spriteCell_inj hc.1 hc'.1 (by omega) (by omega) e).2
    · intro c hc c' hc' e
      subst e
      simp only [rowCells, List.mem_map, List.mem_filter, List.mem_range] at hc
      obtain ⟨col, ⟨hcol, _⟩, rfl⟩ := hc
      obtain ⟨k, col', hk, hcol', _, e⟩ := mem_spriteCells.1 hc'
      have := (spriteCell_inj hcol hcol' (by omega) (by omega) e).1
      omega

/-- A cell after drawing at most 32 rows: toggled exactly when the sprite covers it. -/
theorem drawRows_cell (vx vy : Byte) {bs : List Byte} (h : bs.length ≤ 32) (cv : Canvas) (c : Fin 2048) :
    Framebuffer.cell (drawRows vx vy 0 bs cv).1 c =
      (Framebuffer.cell cv.1 c ^^ decide (c ∈ spriteCells vx vy 0 bs)) := by
  rw [drawRows_eq, hitCells_cell (nodup_spriteCells vx vy 0 h)]

/-- The collision after drawing at most 32 rows: a covered cell was set before. -/
theorem drawRows_hit (vx vy : Byte) {bs : List Byte} (h : bs.length ≤ 32) (cv : Canvas) :
    (drawRows vx vy 0 bs cv).2 = (cv.2 || (spriteCells vx vy 0 bs).any (Framebuffer.cell cv.1)) := by
  rw [drawRows_eq, hitCells_hit (nodup_spriteCells vx vy 0 h)]

end Sys2Proof.Machine
end

