-- ==== Sys2Proof/Laws/Encoding.lean ====
section
/-! SUPPORT. Fields and packed opcodes as numbers (spec/30_encoding.md R90 and section 1), and what follows: the
fields of a packed opcode, and the packing of an opcode's fields, for each format. -/

namespace Sys2Proof

/-! ### Register fields -/

@[simp] theorem regOfField_val (b : Nibble) : (regOfField b).val = b.toNat := rfl

@[simp] theorem fieldOfReg_toNat (x : Reg) : (fieldOfReg x).toNat = x.val := by
  simp only [fieldOfReg, BitVec.toNat_ofNat]; omega

@[simp] theorem regOfField_fieldOfReg (x : Reg) : regOfField (fieldOfReg x) = x :=
  Fin.ext (fieldOfReg_toNat x)

@[simp] theorem fieldOfReg_regOfField (b : Nibble) : fieldOfReg (regOfField b) = b :=
  BitVec.eq_of_toNat_eq (fieldOfReg_toNat (regOfField b))

/-! ### Fields as numbers -/

theorem fieldH_toNat (op : Word) : (fieldH op).toNat = op.toNat / 4096 := by
  have := op.isLt
  simp only [fieldH, BitVec.extractLsb'_toNat, Nat.shiftRight_eq_div_pow]; omega

theorem fieldX_val (op : Word) : (fieldX op).val = op.toNat / 256 % 16 := by
  simp only [fieldX, regOfField_val, BitVec.extractLsb'_toNat, Nat.shiftRight_eq_div_pow]

theorem fieldYBits_toNat (op : Word) : (fieldYBits op).toNat = op.toNat / 16 % 16 := by
  simp only [fieldYBits, BitVec.extractLsb'_toNat, Nat.shiftRight_eq_div_pow]

theorem fieldN_toNat (op : Word) : (fieldN op).toNat = op.toNat % 16 := by
  simp only [fieldN, BitVec.extractLsb'_toNat, Nat.shiftRight_zero]

theorem fieldNN_toNat (op : Word) : (fieldNN op).toNat = op.toNat % 256 := by
  simp only [fieldNN, BitVec.extractLsb'_toNat, Nat.shiftRight_zero]

theorem fieldNNN_toNat (op : Word) : (fieldNNN op).toNat = op.toNat % 4096 := by
  simp only [fieldNNN, BitVec.extractLsb'_toNat, Nat.shiftRight_zero]

theorem fieldU_toNat (op : Word) : (fieldU op).toNat = op.toNat / 16 % 256 := by
  simp only [fieldU, BitVec.extractLsb'_toNat, Nat.shiftRight_eq_div_pow]

/-! ### Packed opcodes as numbers -/

theorem append_toNat {n m : Nat} (a : BitVec n) (b : BitVec m) : (a ++ b).toNat = a.toNat * 2 ^ m + b.toNat := by
  rw [BitVec.toNat_append, ← Nat.shiftLeft_add_eq_or_of_lt b.isLt, Nat.shiftLeft_eq]

theorem packA_toNat (h : Nibble) (nnn : Addr) : (packA h nnn).toNat = h.toNat * 4096 + nnn.toNat :=
  append_toNat h nnn

theorem packXI_toNat (h : Nibble) (x : Reg) (nn : Byte) :
    (packXI h x nn).toNat = h.toNat * 4096 + x.val * 256 + nn.toNat := by
  have hx := append_toNat h (fieldOfReg x)
  rw [fieldOfReg_toNat] at hx
  exact (append_toNat (h ++ fieldOfReg x) nn).trans (by rw [hx]; omega)

theorem packXY_toNat (h : Nibble) (x : Reg) (y n : Nibble) :
    (packXY h x y n).toNat = h.toNat * 4096 + x.val * 256 + y.toNat * 16 + n.toNat := by
  have hx := append_toNat h (fieldOfReg x)
  rw [fieldOfReg_toNat] at hx
  have hy := append_toNat (h ++ fieldOfReg x) y
  exact (append_toNat (h ++ fieldOfReg x ++ y) n).trans (by rw [hy, hx]; omega)

theorem packZ_toNat (u : Byte) (n : Nibble) : (packZ u n).toNat = u.toNat * 16 + n.toNat := by
  have hu : (0x0#4 ++ u).toNat = u.toNat := by rw [append_toNat]; simp
  exact (append_toNat (0x0#4 ++ u) n).trans (by rw [hu]; rfl)

/-! ### The fields of a packed opcode -/

@[simp] theorem fieldH_packA (h : Nibble) (nnn : Addr) : fieldH (packA h nnn) = h := by
  apply BitVec.eq_of_toNat_eq; have := nnn.isLt; rw [fieldH_toNat, packA_toNat]; omega

@[simp] theorem fieldNNN_packA (h : Nibble) (nnn : Addr) : fieldNNN (packA h nnn) = nnn := by
  apply BitVec.eq_of_toNat_eq; have := nnn.isLt; rw [fieldNNN_toNat, packA_toNat]; omega

@[simp] theorem fieldH_packXI (h : Nibble) (x : Reg) (nn : Byte) : fieldH (packXI h x nn) = h := by
  apply BitVec.eq_of_toNat_eq; have := nn.isLt; have := x.isLt; rw [fieldH_toNat, packXI_toNat]; omega

@[simp] theorem fieldX_packXI (h : Nibble) (x : Reg) (nn : Byte) : fieldX (packXI h x nn) = x := by
  apply Fin.ext; have := nn.isLt; have := x.isLt; rw [fieldX_val, packXI_toNat]; omega

@[simp] theorem fieldNN_packXI (h : Nibble) (x : Reg) (nn : Byte) : fieldNN (packXI h x nn) = nn := by
  apply BitVec.eq_of_toNat_eq; have := nn.isLt; rw [fieldNN_toNat, packXI_toNat]; omega

@[simp] theorem fieldH_packXY (h : Nibble) (x : Reg) (y n : Nibble) : fieldH (packXY h x y n) = h := by
  apply BitVec.eq_of_toNat_eq
  have := n.isLt; have := y.isLt; have := x.isLt; rw [fieldH_toNat, packXY_toNat]; omega

@[simp] theorem fieldX_packXY (h : Nibble) (x : Reg) (y n : Nibble) : fieldX (packXY h x y n) = x := by
  apply Fin.ext; have := n.isLt; have := y.isLt; have := x.isLt; rw [fieldX_val, packXY_toNat]; omega

@[simp] theorem fieldYBits_packXY (h : Nibble) (x : Reg) (y n : Nibble) : fieldYBits (packXY h x y n) = y := by
  apply BitVec.eq_of_toNat_eq; have := n.isLt; have := y.isLt; rw [fieldYBits_toNat, packXY_toNat]; omega

@[simp] theorem fieldY_packXY (h : Nibble) (x : Reg) (y n : Nibble) : fieldY (packXY h x y n) = regOfField y := by
  rw [fieldY, fieldYBits_packXY]

@[simp] theorem fieldN_packXY (h : Nibble) (x : Reg) (y n : Nibble) : fieldN (packXY h x y n) = n := by
  apply BitVec.eq_of_toNat_eq; have := n.isLt; rw [fieldN_toNat, packXY_toNat]; omega

@[simp] theorem fieldH_packZ (u : Byte) (n : Nibble) : fieldH (packZ u n) = 0 := by
  apply BitVec.eq_of_toNat_eq; have := n.isLt; have := u.isLt; rw [fieldH_toNat, packZ_toNat]
  show _ = 0; omega

@[simp] theorem fieldU_packZ (u : Byte) (n : Nibble) : fieldU (packZ u n) = u := by
  apply BitVec.eq_of_toNat_eq; have := n.isLt; have := u.isLt; rw [fieldU_toNat, packZ_toNat]; omega

@[simp] theorem fieldN_packZ (u : Byte) (n : Nibble) : fieldN (packZ u n) = n := by
  apply BitVec.eq_of_toNat_eq; have := n.isLt; rw [fieldN_toNat, packZ_toNat]; omega

/-! ### An opcode is the packing of its fields -/

theorem packA_fields (op : Word) : packA (fieldH op) (fieldNNN op) = op := by
  apply BitVec.eq_of_toNat_eq; rw [packA_toNat, fieldH_toNat, fieldNNN_toNat]; omega

theorem packXI_fields (op : Word) : packXI (fieldH op) (fieldX op) (fieldNN op) = op := by
  apply BitVec.eq_of_toNat_eq; rw [packXI_toNat, fieldH_toNat, fieldX_val, fieldNN_toNat]; omega

theorem packXY_fields (op : Word) : packXY (fieldH op) (fieldX op) (fieldYBits op) (fieldN op) = op := by
  apply BitVec.eq_of_toNat_eq
  rw [packXY_toNat, fieldH_toNat, fieldX_val, fieldYBits_toNat, fieldN_toNat]; omega

theorem packZ_fields (op : Word) (h : (fieldH op).toNat = 0) : packZ (fieldU op) (fieldN op) = op := by
  apply BitVec.eq_of_toNat_eq; rw [fieldH_toNat] at h
  rw [packZ_toNat, fieldU_toNat, fieldN_toNat]; omega

theorem fieldYBits_of_NN (op : Word) : fieldYBits op = BitVec.ofNat 4 ((fieldNN op).toNat / 16) := by
  apply BitVec.eq_of_toNat_eq; rw [fieldYBits_toNat, BitVec.toNat_ofNat, fieldNN_toNat]; omega

theorem fieldN_of_NN (op : Word) : fieldN op = BitVec.ofNat 4 (fieldNN op).toNat := by
  apply BitVec.eq_of_toNat_eq; rw [fieldN_toNat, BitVec.toNat_ofNat, fieldNN_toNat]; omega

@[simp] theorem fieldOfReg_fieldY (op : Word) : fieldOfReg (fieldY op) = fieldYBits op := fieldOfReg_regOfField _

/-! ### Masks -/

/-- Every mask of the opcode map clears the X nibble and keeps or clears the others whole. -/
theorem and_mask (op : Word) (mh my mn : Nibble) :
    op &&& packXY mh 0 my mn = packXY (fieldH op &&& mh) 0 (fieldYBits op &&& my) (fieldN op &&& mn) := by
  have hx : fieldOfReg (fieldX op) &&& fieldOfReg 0 = fieldOfReg 0 := by
    show _ &&& 0#4 = 0#4; simp
  conv_lhs => rw [← packXY_fields op]
  unfold packXY
  refine (BitVec.and_append (w := 4 + 4 + 4) (v := 4)).trans ?_
  rw [BitVec.and_append, BitVec.and_append, hx]

theorem nibble_and_F (b : Nibble) : b &&& 0xF = b := BitVec.and_allOnes

theorem and_F000 (op : Word) : op &&& 0xF000 = packXY (fieldH op) 0 0 0 := by
  refine (and_mask op 0xF 0 0).trans ?_
  rw [nibble_and_F]; simp

theorem and_F00F (op : Word) : op &&& 0xF00F = packXY (fieldH op) 0 0 (fieldN op) := by
  refine (and_mask op 0xF 0 0xF).trans ?_
  rw [nibble_and_F, nibble_and_F]; simp

theorem and_F0FF (op : Word) : op &&& 0xF0FF = packXI (fieldH op) 0 (fieldNN op) := by
  refine (and_mask op 0xF 0xF 0xF).trans ?_
  apply BitVec.eq_of_toNat_eq
  rw [nibble_and_F, nibble_and_F, nibble_and_F, packXY_toNat, packXI_toNat]
  rw [fieldYBits_toNat, fieldN_toNat, fieldNN_toNat]; omega

end Sys2Proof
end

