-- ==== Sys2Proof/Laws/Memory.lean ====
section
/-! SUPPORT. The laws of memory: a read after a write, the canonical form and that every operation keeps it, and what
the ranges of accesses and the fetch do. -/

namespace Sys2Proof.Machine

/-! ### Reading after writing (spec/20_memory.md R70, R75) -/

@[simp] theorem Memory.read_cons_same (m : Memory) (k : Nat) (b : Byte) : Memory.read ((k, b) :: m) k = b := by
  simp [Memory.read]

theorem Memory.read_cons_other {k a : Nat} (m : Memory) (b : Byte) (h : a ≠ k) :
    Memory.read ((k, b) :: m) a = m.read a := by
  rw [Memory.read, if_neg (Ne.symm h)]

/-- An erased address reads as unlisted. -/
theorem Memory.read_erase_same (m : Memory) (a : Nat) : (m.erase a).read a = Memory.unlisted a := by
  unfold Memory.erase
  induction m with
  | nil => rfl
  | cons e rest ih =>
    obtain ⟨k, b⟩ := e
    by_cases h : k = a
    · subst h; simpa using ih
    · rw [List.filter_cons_of_pos (by simpa using h), Memory.read_cons_other _ _ (Ne.symm h), ih]

/-- Erasing an address leaves every other. -/
theorem Memory.read_erase_other {m : Memory} {a a' : Nat} (h : a' ≠ a) : (m.erase a).read a' = m.read a' := by
  unfold Memory.erase
  induction m with
  | nil => rfl
  | cons e rest ih =>
    obtain ⟨k, b⟩ := e
    by_cases hk : k = a
    · subst hk
      rw [List.filter_cons_of_neg (by simp), Memory.read_cons_other _ _ h, ih]
    · rw [List.filter_cons_of_pos (by simpa using hk)]
      by_cases hk' : a' = k
      · subst hk'; simp
      · rw [Memory.read_cons_other _ _ hk', Memory.read_cons_other _ _ hk', ih]

/-- An inserted address reads as inserted, when it was not listed. -/
theorem Memory.read_insert_same {m : Memory} {a : Nat} (b : Byte) (h : ∀ e ∈ m, e.1 ≠ a) :
    (m.insert a b).read a = b := by
  induction m with
  | nil => simp [Memory.insert]
  | cons e rest ih =>
    obtain ⟨k, c⟩ := e
    unfold Memory.insert
    split
    · simp
    · rw [Memory.read_cons_other _ _ (Ne.symm (h (k, c) (by simp)))]
      exact ih fun e he => h e (by simp [he])

/-- Inserting an address leaves every other. -/
theorem Memory.read_insert_other {m : Memory} {a a' : Nat} (b : Byte) (h : a' ≠ a) :
    (m.insert a b).read a' = m.read a' := by
  induction m with
  | nil => exact Memory.read_cons_other _ _ h
  | cons e rest ih =>
    obtain ⟨k, c⟩ := e
    unfold Memory.insert
    split
    · exact Memory.read_cons_other _ _ h
    · by_cases hk : a' = k
      · subst hk; simp
      · rw [Memory.read_cons_other _ _ hk, Memory.read_cons_other _ _ hk, ih]

theorem Memory.erase_unlists (m : Memory) (a : Nat) : ∀ e ∈ m.erase a, e.1 ≠ a := by
  intro e he
  simpa using (List.mem_filter.1 he).2

/-- A byte just written reads as what was written. -/
@[simp] theorem Memory.read_write_same (m : Memory) (a : Nat) (b : Byte) : (m.write a b).read a = b := by
  unfold Memory.write
  split
  · rename_i h; rw [Memory.read_erase_same, h]
  · exact Memory.read_insert_same b (m.erase_unlists a)

/-- A write leaves every other byte. -/
theorem Memory.read_write_other {m : Memory} {a a' : Nat} (b : Byte) (h : a' ≠ a) :
    (m.write a b).read a' = m.read a' := by
  unfold Memory.write
  split
  · exact Memory.read_erase_other h
  · rw [Memory.read_insert_other b h, Memory.read_erase_other h]

/-! ### The canonical form -/

theorem Memory.wfFrom_cons {lo k : Nat} {b : Byte} {rest : Memory} :
    Memory.wfFrom lo ((k, b) :: rest) = true ↔
      lo ≤ k ∧ k < 4096 ∧ b ≠ Memory.unlisted k ∧ Memory.wfFrom (k + 1) rest = true := by
  simp [Memory.wfFrom, and_assoc]

/-- The form from a higher address on is the form from a lower one on. -/
theorem Memory.wfFrom_mono {lo lo' : Nat} {m : Memory} (hm : Memory.wfFrom lo m = true) (h : lo' ≤ lo) :
    Memory.wfFrom lo' m = true := by
  cases m with
  | nil => rfl
  | cons e rest =>
    obtain ⟨k, b⟩ := e
    rw [Memory.wfFrom_cons] at hm ⊢
    exact ⟨by omega, hm.2⟩

/-- Below its first address a canonical memory lists nothing. -/
theorem Memory.read_below {lo a : Nat} {m : Memory} (hm : Memory.wfFrom lo m = true) (h : a < lo) :
    m.read a = Memory.unlisted a := by
  induction m generalizing lo with
  | nil => rfl
  | cons e rest ih =>
    obtain ⟨k, b⟩ := e
    rw [Memory.wfFrom_cons] at hm
    rw [Memory.read_cons_other _ _ (by omega)]
    exact ih hm.2.2.2 (by omega)

/-- Erasing keeps the form. -/
theorem Memory.wfFrom_erase {lo : Nat} {m : Memory} (hm : Memory.wfFrom lo m = true) (a : Nat) :
    Memory.wfFrom lo (m.erase a) = true := by
  unfold Memory.erase
  induction m generalizing lo with
  | nil => rfl
  | cons e rest ih =>
    obtain ⟨k, b⟩ := e
    rw [Memory.wfFrom_cons] at hm
    by_cases hk : k = a
    · subst hk
      rw [List.filter_cons_of_neg (by simp)]
      exact Memory.wfFrom_mono (ih hm.2.2.2) (by omega)
    · rw [List.filter_cons_of_pos (by simpa using hk), Memory.wfFrom_cons]
      exact ⟨hm.1, hm.2.1, hm.2.2.1, ih hm.2.2.2⟩

/-- Inserting an unlisted address below 4096, with a byte it does not read as, keeps the form. -/
theorem Memory.wfFrom_insert {lo a : Nat} {m : Memory} {b : Byte} (hm : Memory.wfFrom lo m = true)
    (hlo : lo ≤ a) (ha : a < 4096) (hb : b ≠ Memory.unlisted a) (hn : ∀ e ∈ m, e.1 ≠ a) :
    Memory.wfFrom lo (m.insert a b) = true := by
  induction m generalizing lo with
  | nil => exact Memory.wfFrom_cons.2 ⟨hlo, ha, hb, rfl⟩
  | cons e rest ih =>
    obtain ⟨k, c⟩ := e
    have hk := Memory.wfFrom_cons.1 hm
    have hka : k ≠ a := hn (k, c) (by simp)
    unfold Memory.insert
    split
    · rename_i h
      have h : a < k := h
      exact Memory.wfFrom_cons.2 ⟨hlo, ha, hb, Memory.wfFrom_cons.2 ⟨h, hk.2⟩⟩
    · rename_i h
      have h : ¬ a < k := h
      exact Memory.wfFrom_cons.2
        ⟨hk.1, hk.2.1, hk.2.2.1, ih hk.2.2.2 (by omega) fun e he => hn e (by simp [he])⟩

/-- A write below 4096 keeps the canonical form. -/
theorem Memory.write_wf {m : Memory} {a : Nat} (hm : m.wf = true) (ha : a < 4096) (b : Byte) :
    (m.write a b).wf = true := by
  unfold Memory.write
  split
  · exact Memory.wfFrom_erase hm a
  · rename_i hb
    exact Memory.wfFrom_insert (Memory.wfFrom_erase hm a) (Nat.zero_le _) ha hb (m.erase_unlists a)

/-- Reset's memory has the canonical form. -/
theorem Memory.reset_wf : State.reset.mem.wf = true := rfl

/-! ### Ranges of accesses (spec/44_index_mem.md R186) -/

/-- The address of the first access that fails among `n` accesses from `a` on. -/
def firstBad (a n : Nat) : Option Nat := if n = 0 ∨ a + n ≤ 4096 then none else some (max a 4096)

/-- How many of `n` accesses from `a` on are made before one fails. -/
def goodCount (a n : Nat) : Nat := min n (4096 - a)

theorem readRange_bad (m : Memory) (a n : Nat) : (readRange m a n).2 = firstBad a n := by
  induction n generalizing a with
  | zero => rfl
  | succ n ih =>
    unfold readRange memRead
    by_cases h : a ≤ 4095
    · simp only [if_pos h, ih, firstBad]
      split <;> split <;> first | rfl | (exfalso; omega) | (congr 1; omega)
    · simp only [if_neg h, firstBad]
      rw [if_neg (by omega)]
      congr 1; omega

theorem readRange_bytes (m : Memory) (a n : Nat) :
    (readRange m a n).1 = (List.range (goodCount a n)).map fun k => m.read (a + k) := by
  induction n generalizing a with
  | zero => simp [readRange, goodCount]
  | succ n ih =>
    unfold readRange memRead
    by_cases h : a ≤ 4095
    · have e : goodCount a (n + 1) = goodCount (a + 1) n + 1 := by unfold goodCount; omega
      simp only [if_pos h, ih, e, List.range_succ_eq_map, List.map_cons, List.map_map]
      congr 1
      apply List.map_congr_left
      intro k _
      simp only [Function.comp]
      congr 1; omega
    · have e : goodCount a (n + 1) = 0 := by unfold goodCount; omega
      simp [if_neg h, e]

theorem writeRange_bad (m : Memory) (a : Nat) (bs : List Byte) : (writeRange m a bs).2 = firstBad a bs.length := by
  induction bs generalizing m a with
  | nil => rfl
  | cons b bs ih =>
    unfold writeRange memWrite
    by_cases h : a ≤ 4095
    · simp only [if_pos h, ih, firstBad, List.length_cons]
      split <;> split <;> first | rfl | (exfalso; omega) | (congr 1; omega)
    · simp only [if_neg h, firstBad, List.length_cons]
      rw [if_neg (by omega)]
      congr 1; omega

/-- A byte outside the accesses made reads as before. -/
theorem writeRange_read_other (m : Memory) (a : Nat) (bs : List Byte) {a' : Nat}
    (h : a' < a ∨ a + goodCount a bs.length ≤ a') : (writeRange m a bs).1.read a' = m.read a' := by
  induction bs generalizing m a with
  | nil => rfl
  | cons b bs ih =>
    unfold writeRange memWrite
    by_cases ha : a ≤ 4095
    · simp only [if_pos ha]
      have e : goodCount a (bs.length + 1) = goodCount (a + 1) bs.length + 1 := by unfold goodCount; omega
      rw [List.length_cons, e] at h
      rw [ih _ _ (by omega), Memory.read_write_other _ (by omega)]
    · simp [if_neg ha]

/-- A byte the accesses made reads as written. -/
theorem writeRange_read_same (m : Memory) (a : Nat) (bs : List Byte) {k : Nat} (hk : k < bs.length)
    (h : a + k ≤ 4095) : (writeRange m a bs).1.read (a + k) = bs[k] := by
  induction bs generalizing m a k with
  | nil => simp at hk
  | cons b bs ih =>
    unfold writeRange memWrite
    simp only [if_pos (show a ≤ 4095 by omega)]
    cases k with
    | zero =>
      rw [writeRange_read_other _ (a + 1) bs (by omega)]
      simp
    | succ k =>
      have := ih (m.write a b) (a + 1) (k := k) (by simpa using hk) (by omega)
      rw [show a + (k + 1) = a + 1 + k by omega, this]
      simp

/-- A range of writes keeps the canonical form. -/
theorem writeRange_wf {m : Memory} (hm : m.wf = true) (a : Nat) (bs : List Byte) : (writeRange m a bs).1.wf = true := by
  induction bs generalizing m a with
  | nil => exact hm
  | cons b bs ih =>
    unfold writeRange memWrite
    by_cases h : a ≤ 4095
    · simp only [if_pos h]; exact ih (Memory.write_wf hm (by omega) b) _
    · simp only [if_neg h]; exact hm

/-- A single data write keeps the canonical form. -/
theorem memWrite_wf {m m' : Memory} {a : Nat} {b : Byte} (hm : m.wf = true) (h : memWrite m a b = some m') :
    m'.wf = true := by
  unfold memWrite at h
  split at h
  · cases h; exact Memory.write_wf hm (by omega) b
  · cases h

/-- The host's loader keeps the canonical form. -/
theorem storeBytes_wf {m : Memory} (hm : m.wf = true) (a : Nat) (bs : List Byte) (h : a + bs.length ≤ 4096) :
    (storeBytes m a bs).wf = true := by
  induction bs generalizing m a with
  | nil => exact hm
  | cons b bs ih =>
    rw [List.length_cons] at h
    exact ih (Memory.write_wf hm (by omega) b) _ (by omega)

/-! ### The fetch (spec/20_memory.md R62) -/

theorem wordOfBytes_toNat (hi lo : Byte) : (wordOfBytes hi lo).toNat = hi.toNat * 256 + lo.toNat := by
  rw [wordOfBytes, BitVec.toNat_append, ← Nat.shiftLeft_add_eq_or_of_lt lo.isLt, Nat.shiftLeft_eq]

theorem fetch_eq_some {m : Memory} {pc op : Word} :
    fetch m pc = some op ↔ pc.toNat ≤ 4094 ∧ op = wordOfBytes (m.read pc.toNat) (m.read (pc.toNat + 1)) := by
  unfold fetch
  split <;> simp_all [eq_comm]

theorem fetch_eq_none {m : Memory} {pc : Word} : fetch m pc = none ↔ 4094 < pc.toNat := by
  unfold fetch
  split <;> simp_all

@[simp] theorem wordOfBytes_hi_lo (op : Word) : wordOfBytes (hiByte op) (loByte op) = op := by
  apply BitVec.eq_of_getLsbD_eq
  intro k hk
  simp only [wordOfBytes, hiByte, loByte, BitVec.getLsbD_append, BitVec.getLsbD_extractLsb']
  by_cases h : k < 8
  · simp [h]
  · have e : 8 + (k - 8) = k := by omega
    have h2 : k - 8 < 8 := by omega
    simp [h, e, h2]

end Sys2Proof.Machine
end

