-- ==== Sys2Proof/Laws/State.lean ====
section
/-! SUPPORT. What each update of the state leaves of each field, so that no proof unfolds a record update: one lemma
per field per update. -/

namespace Sys2Proof.Machine

variable (s : State)

/-! ### `State.advance` -/

@[simp] theorem State.advance_mem (k : Word) : (s.advance k).mem = s.mem := rfl
@[simp] theorem State.advance_v (k : Word) : (s.advance k).v = s.v := rfl
@[simp] theorem State.advance_pc (k : Word) : (s.advance k).pc = s.pc + k := rfl
@[simp] theorem State.advance_i (k : Word) : (s.advance k).i = s.i := rfl
@[simp] theorem State.advance_stack (k : Word) : (s.advance k).stack = s.stack := rfl
@[simp] theorem State.advance_sp (k : Word) : (s.advance k).sp = s.sp := rfl
@[simp] theorem State.advance_dt (k : Word) : (s.advance k).dt = s.dt := rfl
@[simp] theorem State.advance_st (k : Word) : (s.advance k).st = s.st := rfl
@[simp] theorem State.advance_keys (k : Word) : (s.advance k).keys = s.keys := rfl
@[simp] theorem State.advance_fb (k : Word) : (s.advance k).fb = s.fb := rfl
@[simp] theorem State.advance_draw (k : Word) : (s.advance k).draw = s.draw := rfl
@[simp] theorem State.advance_sound (k : Word) : (s.advance k).sound = s.sound := rfl
@[simp] theorem State.advance_fault (k : Word) : (s.advance k).fault = s.fault := rfl
@[simp] theorem State.advance_draws (k : Word) : (s.advance k).draws = s.draws := rfl

/-! ### `State.raise` -/

@[simp] theorem State.raise_mem (f : Failure) (op : Option Word) : (s.raise f op).mem = s.mem := rfl
@[simp] theorem State.raise_v (f : Failure) (op : Option Word) : (s.raise f op).v = s.v := rfl
@[simp] theorem State.raise_pc (f : Failure) (op : Option Word) : (s.raise f op).pc = s.pc := rfl
@[simp] theorem State.raise_i (f : Failure) (op : Option Word) : (s.raise f op).i = s.i := rfl
@[simp] theorem State.raise_stack (f : Failure) (op : Option Word) : (s.raise f op).stack = s.stack := rfl
@[simp] theorem State.raise_sp (f : Failure) (op : Option Word) : (s.raise f op).sp = s.sp := rfl
@[simp] theorem State.raise_dt (f : Failure) (op : Option Word) : (s.raise f op).dt = s.dt := rfl
@[simp] theorem State.raise_st (f : Failure) (op : Option Word) : (s.raise f op).st = s.st := rfl
@[simp] theorem State.raise_keys (f : Failure) (op : Option Word) : (s.raise f op).keys = s.keys := rfl
@[simp] theorem State.raise_fb (f : Failure) (op : Option Word) : (s.raise f op).fb = s.fb := rfl
@[simp] theorem State.raise_draw (f : Failure) (op : Option Word) : (s.raise f op).draw = s.draw := rfl
@[simp] theorem State.raise_sound (f : Failure) (op : Option Word) : (s.raise f op).sound = s.sound := rfl
@[simp] theorem State.raise_fault (f : Failure) (op : Option Word) : (s.raise f op).fault = some ⟨f, op⟩ := rfl
@[simp] theorem State.raise_draws (f : Failure) (op : Option Word) : (s.raise f op).draws = s.draws := rfl

/-! ### `State.setReg` -/

@[simp] theorem State.setReg_mem (x : Reg) (b : Byte) : (s.setReg x b).mem = s.mem := rfl
@[simp] theorem State.setReg_v (x : Reg) (b : Byte) : (s.setReg x b).v = s.v.set x.val b x.isLt := rfl
@[simp] theorem State.setReg_pc (x : Reg) (b : Byte) : (s.setReg x b).pc = s.pc := rfl
@[simp] theorem State.setReg_i (x : Reg) (b : Byte) : (s.setReg x b).i = s.i := rfl
@[simp] theorem State.setReg_stack (x : Reg) (b : Byte) : (s.setReg x b).stack = s.stack := rfl
@[simp] theorem State.setReg_sp (x : Reg) (b : Byte) : (s.setReg x b).sp = s.sp := rfl
@[simp] theorem State.setReg_dt (x : Reg) (b : Byte) : (s.setReg x b).dt = s.dt := rfl
@[simp] theorem State.setReg_st (x : Reg) (b : Byte) : (s.setReg x b).st = s.st := rfl
@[simp] theorem State.setReg_keys (x : Reg) (b : Byte) : (s.setReg x b).keys = s.keys := rfl
@[simp] theorem State.setReg_fb (x : Reg) (b : Byte) : (s.setReg x b).fb = s.fb := rfl
@[simp] theorem State.setReg_draw (x : Reg) (b : Byte) : (s.setReg x b).draw = s.draw := rfl
@[simp] theorem State.setReg_sound (x : Reg) (b : Byte) : (s.setReg x b).sound = s.sound := rfl
@[simp] theorem State.setReg_fault (x : Reg) (b : Byte) : (s.setReg x b).fault = s.fault := rfl
@[simp] theorem State.setReg_draws (x : Reg) (b : Byte) : (s.setReg x b).draws = s.draws := rfl

/-! ### `State.setFlag` -/

@[simp] theorem State.setFlag_mem (c : Bool) : (s.setFlag c).mem = s.mem := rfl
@[simp] theorem State.setFlag_v (c : Bool) : (s.setFlag c).v = s.v.set 15 (flagByte c) (by decide) := rfl
@[simp] theorem State.setFlag_pc (c : Bool) : (s.setFlag c).pc = s.pc := rfl
@[simp] theorem State.setFlag_i (c : Bool) : (s.setFlag c).i = s.i := rfl
@[simp] theorem State.setFlag_stack (c : Bool) : (s.setFlag c).stack = s.stack := rfl
@[simp] theorem State.setFlag_sp (c : Bool) : (s.setFlag c).sp = s.sp := rfl
@[simp] theorem State.setFlag_dt (c : Bool) : (s.setFlag c).dt = s.dt := rfl
@[simp] theorem State.setFlag_st (c : Bool) : (s.setFlag c).st = s.st := rfl
@[simp] theorem State.setFlag_keys (c : Bool) : (s.setFlag c).keys = s.keys := rfl
@[simp] theorem State.setFlag_fb (c : Bool) : (s.setFlag c).fb = s.fb := rfl
@[simp] theorem State.setFlag_draw (c : Bool) : (s.setFlag c).draw = s.draw := rfl
@[simp] theorem State.setFlag_sound (c : Bool) : (s.setFlag c).sound = s.sound := rfl
@[simp] theorem State.setFlag_fault (c : Bool) : (s.setFlag c).fault = s.fault := rfl
@[simp] theorem State.setFlag_draws (c : Bool) : (s.setFlag c).draws = s.draws := rfl

/-! ### `State.setFlagThenReg` -/

@[simp] theorem State.setFlagThenReg_mem (c : Bool) (x : Reg) (b : Byte) : (s.setFlagThenReg c x b).mem = s.mem := rfl
@[simp] theorem State.setFlagThenReg_v (c : Bool) (x : Reg) (b : Byte) : (s.setFlagThenReg c x b).v = (s.v.set 15 (flagByte c) (by decide)).set x.val b x.isLt := rfl
@[simp] theorem State.setFlagThenReg_pc (c : Bool) (x : Reg) (b : Byte) : (s.setFlagThenReg c x b).pc = s.pc := rfl
@[simp] theorem State.setFlagThenReg_i (c : Bool) (x : Reg) (b : Byte) : (s.setFlagThenReg c x b).i = s.i := rfl
@[simp] theorem State.setFlagThenReg_stack (c : Bool) (x : Reg) (b : Byte) : (s.setFlagThenReg c x b).stack = s.stack := rfl
@[simp] theorem State.setFlagThenReg_sp (c : Bool) (x : Reg) (b : Byte) : (s.setFlagThenReg c x b).sp = s.sp := rfl
@[simp] theorem State.setFlagThenReg_dt (c : Bool) (x : Reg) (b : Byte) : (s.setFlagThenReg c x b).dt = s.dt := rfl
@[simp] theorem State.setFlagThenReg_st (c : Bool) (x : Reg) (b : Byte) : (s.setFlagThenReg c x b).st = s.st := rfl
@[simp] theorem State.setFlagThenReg_keys (c : Bool) (x : Reg) (b : Byte) : (s.setFlagThenReg c x b).keys = s.keys := rfl
@[simp] theorem State.setFlagThenReg_fb (c : Bool) (x : Reg) (b : Byte) : (s.setFlagThenReg c x b).fb = s.fb := rfl
@[simp] theorem State.setFlagThenReg_draw (c : Bool) (x : Reg) (b : Byte) : (s.setFlagThenReg c x b).draw = s.draw := rfl
@[simp] theorem State.setFlagThenReg_sound (c : Bool) (x : Reg) (b : Byte) : (s.setFlagThenReg c x b).sound = s.sound := rfl
@[simp] theorem State.setFlagThenReg_fault (c : Bool) (x : Reg) (b : Byte) : (s.setFlagThenReg c x b).fault = s.fault := rfl
@[simp] theorem State.setFlagThenReg_draws (c : Bool) (x : Reg) (b : Byte) : (s.setFlagThenReg c x b).draws = s.draws := rfl

/-! ### `State.setFirstRegs` -/

@[simp] theorem State.setFirstRegs_mem (bs : List Byte) : (s.setFirstRegs bs).mem = s.mem := rfl
@[simp] theorem State.setFirstRegs_v (bs : List Byte) : (s.setFirstRegs bs).v = loadFrom 0 bs s.v := rfl
@[simp] theorem State.setFirstRegs_pc (bs : List Byte) : (s.setFirstRegs bs).pc = s.pc := rfl
@[simp] theorem State.setFirstRegs_i (bs : List Byte) : (s.setFirstRegs bs).i = s.i := rfl
@[simp] theorem State.setFirstRegs_stack (bs : List Byte) : (s.setFirstRegs bs).stack = s.stack := rfl
@[simp] theorem State.setFirstRegs_sp (bs : List Byte) : (s.setFirstRegs bs).sp = s.sp := rfl
@[simp] theorem State.setFirstRegs_dt (bs : List Byte) : (s.setFirstRegs bs).dt = s.dt := rfl
@[simp] theorem State.setFirstRegs_st (bs : List Byte) : (s.setFirstRegs bs).st = s.st := rfl
@[simp] theorem State.setFirstRegs_keys (bs : List Byte) : (s.setFirstRegs bs).keys = s.keys := rfl
@[simp] theorem State.setFirstRegs_fb (bs : List Byte) : (s.setFirstRegs bs).fb = s.fb := rfl
@[simp] theorem State.setFirstRegs_draw (bs : List Byte) : (s.setFirstRegs bs).draw = s.draw := rfl
@[simp] theorem State.setFirstRegs_sound (bs : List Byte) : (s.setFirstRegs bs).sound = s.sound := rfl
@[simp] theorem State.setFirstRegs_fault (bs : List Byte) : (s.setFirstRegs bs).fault = s.fault := rfl
@[simp] theorem State.setFirstRegs_draws (bs : List Byte) : (s.setFirstRegs bs).draws = s.draws := rfl

/-! ### `State.advanceIndex` -/

@[simp] theorem State.advanceIndex_mem (x : Reg) : (s.advanceIndex x).mem = s.mem := rfl
@[simp] theorem State.advanceIndex_v (x : Reg) : (s.advanceIndex x).v = s.v := rfl
@[simp] theorem State.advanceIndex_pc (x : Reg) : (s.advanceIndex x).pc = s.pc := rfl
@[simp] theorem State.advanceIndex_i (x : Reg) : (s.advanceIndex x).i = BitVec.ofNat 16 (s.i.toNat + x.val + 1) := rfl
@[simp] theorem State.advanceIndex_stack (x : Reg) : (s.advanceIndex x).stack = s.stack := rfl
@[simp] theorem State.advanceIndex_sp (x : Reg) : (s.advanceIndex x).sp = s.sp := rfl
@[simp] theorem State.advanceIndex_dt (x : Reg) : (s.advanceIndex x).dt = s.dt := rfl
@[simp] theorem State.advanceIndex_st (x : Reg) : (s.advanceIndex x).st = s.st := rfl
@[simp] theorem State.advanceIndex_keys (x : Reg) : (s.advanceIndex x).keys = s.keys := rfl
@[simp] theorem State.advanceIndex_fb (x : Reg) : (s.advanceIndex x).fb = s.fb := rfl
@[simp] theorem State.advanceIndex_draw (x : Reg) : (s.advanceIndex x).draw = s.draw := rfl
@[simp] theorem State.advanceIndex_sound (x : Reg) : (s.advanceIndex x).sound = s.sound := rfl
@[simp] theorem State.advanceIndex_fault (x : Reg) : (s.advanceIndex x).fault = s.fault := rfl
@[simp] theorem State.advanceIndex_draws (x : Reg) : (s.advanceIndex x).draws = s.draws := rfl

/-! ### `State.nextDraw` -/

@[simp] theorem State.nextDraw_mem : (s.nextDraw).mem = s.mem := rfl
@[simp] theorem State.nextDraw_v : (s.nextDraw).v = s.v := rfl
@[simp] theorem State.nextDraw_pc : (s.nextDraw).pc = s.pc := rfl
@[simp] theorem State.nextDraw_i : (s.nextDraw).i = s.i := rfl
@[simp] theorem State.nextDraw_stack : (s.nextDraw).stack = s.stack := rfl
@[simp] theorem State.nextDraw_sp : (s.nextDraw).sp = s.sp := rfl
@[simp] theorem State.nextDraw_dt : (s.nextDraw).dt = s.dt := rfl
@[simp] theorem State.nextDraw_st : (s.nextDraw).st = s.st := rfl
@[simp] theorem State.nextDraw_keys : (s.nextDraw).keys = s.keys := rfl
@[simp] theorem State.nextDraw_fb : (s.nextDraw).fb = s.fb := rfl
@[simp] theorem State.nextDraw_draw : (s.nextDraw).draw = s.draw := rfl
@[simp] theorem State.nextDraw_sound : (s.nextDraw).sound = s.sound := rfl
@[simp] theorem State.nextDraw_fault : (s.nextDraw).fault = s.fault := rfl
@[simp] theorem State.nextDraw_draws : (s.nextDraw).draws = s.draws + 1 := rfl

/-! ### `State.doReset` -/

@[simp] theorem State.doReset_mem : (s.doReset).mem = State.reset.mem := rfl
@[simp] theorem State.doReset_v : (s.doReset).v = State.reset.v := rfl
@[simp] theorem State.doReset_pc : (s.doReset).pc = State.reset.pc := rfl
@[simp] theorem State.doReset_i : (s.doReset).i = State.reset.i := rfl
@[simp] theorem State.doReset_stack : (s.doReset).stack = State.reset.stack := rfl
@[simp] theorem State.doReset_sp : (s.doReset).sp = State.reset.sp := rfl
@[simp] theorem State.doReset_dt : (s.doReset).dt = State.reset.dt := rfl
@[simp] theorem State.doReset_st : (s.doReset).st = State.reset.st := rfl
@[simp] theorem State.doReset_keys : (s.doReset).keys = State.reset.keys := rfl
@[simp] theorem State.doReset_fb : (s.doReset).fb = State.reset.fb := rfl
@[simp] theorem State.doReset_draw : (s.doReset).draw = State.reset.draw := rfl
@[simp] theorem State.doReset_sound : (s.doReset).sound = State.reset.sound := rfl
@[simp] theorem State.doReset_fault : (s.doReset).fault = State.reset.fault := rfl
@[simp] theorem State.doReset_draws : (s.doReset).draws = s.draws := rfl

/-! ### `State.hostMemWrite` -/

@[simp] theorem State.hostMemWrite_mem (a : Addr) (b : Byte) : (s.hostMemWrite a b).mem = s.mem.write a.toNat b := rfl
@[simp] theorem State.hostMemWrite_v (a : Addr) (b : Byte) : (s.hostMemWrite a b).v = s.v := rfl
@[simp] theorem State.hostMemWrite_pc (a : Addr) (b : Byte) : (s.hostMemWrite a b).pc = s.pc := rfl
@[simp] theorem State.hostMemWrite_i (a : Addr) (b : Byte) : (s.hostMemWrite a b).i = s.i := rfl
@[simp] theorem State.hostMemWrite_stack (a : Addr) (b : Byte) : (s.hostMemWrite a b).stack = s.stack := rfl
@[simp] theorem State.hostMemWrite_sp (a : Addr) (b : Byte) : (s.hostMemWrite a b).sp = s.sp := rfl
@[simp] theorem State.hostMemWrite_dt (a : Addr) (b : Byte) : (s.hostMemWrite a b).dt = s.dt := rfl
@[simp] theorem State.hostMemWrite_st (a : Addr) (b : Byte) : (s.hostMemWrite a b).st = s.st := rfl
@[simp] theorem State.hostMemWrite_keys (a : Addr) (b : Byte) : (s.hostMemWrite a b).keys = s.keys := rfl
@[simp] theorem State.hostMemWrite_fb (a : Addr) (b : Byte) : (s.hostMemWrite a b).fb = s.fb := rfl
@[simp] theorem State.hostMemWrite_draw (a : Addr) (b : Byte) : (s.hostMemWrite a b).draw = s.draw := rfl
@[simp] theorem State.hostMemWrite_sound (a : Addr) (b : Byte) : (s.hostMemWrite a b).sound = s.sound := rfl
@[simp] theorem State.hostMemWrite_fault (a : Addr) (b : Byte) : (s.hostMemWrite a b).fault = s.fault := rfl
@[simp] theorem State.hostMemWrite_draws (a : Addr) (b : Byte) : (s.hostMemWrite a b).draws = s.draws := rfl

/-! ### `State.hostKeyWrite` -/

@[simp] theorem State.hostKeyWrite_mem (k : Key) (p : Bool) : (s.hostKeyWrite k p).mem = s.mem := rfl
@[simp] theorem State.hostKeyWrite_v (k : Key) (p : Bool) : (s.hostKeyWrite k p).v = s.v := rfl
@[simp] theorem State.hostKeyWrite_pc (k : Key) (p : Bool) : (s.hostKeyWrite k p).pc = s.pc := rfl
@[simp] theorem State.hostKeyWrite_i (k : Key) (p : Bool) : (s.hostKeyWrite k p).i = s.i := rfl
@[simp] theorem State.hostKeyWrite_stack (k : Key) (p : Bool) : (s.hostKeyWrite k p).stack = s.stack := rfl
@[simp] theorem State.hostKeyWrite_sp (k : Key) (p : Bool) : (s.hostKeyWrite k p).sp = s.sp := rfl
@[simp] theorem State.hostKeyWrite_dt (k : Key) (p : Bool) : (s.hostKeyWrite k p).dt = s.dt := rfl
@[simp] theorem State.hostKeyWrite_st (k : Key) (p : Bool) : (s.hostKeyWrite k p).st = s.st := rfl
@[simp] theorem State.hostKeyWrite_keys (k : Key) (p : Bool) : (s.hostKeyWrite k p).keys = keysWith s.keys k p := rfl
@[simp] theorem State.hostKeyWrite_fb (k : Key) (p : Bool) : (s.hostKeyWrite k p).fb = s.fb := rfl
@[simp] theorem State.hostKeyWrite_draw (k : Key) (p : Bool) : (s.hostKeyWrite k p).draw = s.draw := rfl
@[simp] theorem State.hostKeyWrite_sound (k : Key) (p : Bool) : (s.hostKeyWrite k p).sound = s.sound := rfl
@[simp] theorem State.hostKeyWrite_fault (k : Key) (p : Bool) : (s.hostKeyWrite k p).fault = s.fault := rfl
@[simp] theorem State.hostKeyWrite_draws (k : Key) (p : Bool) : (s.hostKeyWrite k p).draws = s.draws := rfl

/-! ### `State.drawAck` -/

@[simp] theorem State.drawAck_mem : (s.drawAck).mem = s.mem := rfl
@[simp] theorem State.drawAck_v : (s.drawAck).v = s.v := rfl
@[simp] theorem State.drawAck_pc : (s.drawAck).pc = s.pc := rfl
@[simp] theorem State.drawAck_i : (s.drawAck).i = s.i := rfl
@[simp] theorem State.drawAck_stack : (s.drawAck).stack = s.stack := rfl
@[simp] theorem State.drawAck_sp : (s.drawAck).sp = s.sp := rfl
@[simp] theorem State.drawAck_dt : (s.drawAck).dt = s.dt := rfl
@[simp] theorem State.drawAck_st : (s.drawAck).st = s.st := rfl
@[simp] theorem State.drawAck_keys : (s.drawAck).keys = s.keys := rfl
@[simp] theorem State.drawAck_fb : (s.drawAck).fb = s.fb := rfl
@[simp] theorem State.drawAck_draw : (s.drawAck).draw = false := rfl
@[simp] theorem State.drawAck_sound : (s.drawAck).sound = s.sound := rfl
@[simp] theorem State.drawAck_fault : (s.drawAck).fault = s.fault := rfl
@[simp] theorem State.drawAck_draws : (s.drawAck).draws = s.draws := rfl

/-! ### `State.soundAck` -/

@[simp] theorem State.soundAck_mem : (s.soundAck).mem = s.mem := rfl
@[simp] theorem State.soundAck_v : (s.soundAck).v = s.v := rfl
@[simp] theorem State.soundAck_pc : (s.soundAck).pc = s.pc := rfl
@[simp] theorem State.soundAck_i : (s.soundAck).i = s.i := rfl
@[simp] theorem State.soundAck_stack : (s.soundAck).stack = s.stack := rfl
@[simp] theorem State.soundAck_sp : (s.soundAck).sp = s.sp := rfl
@[simp] theorem State.soundAck_dt : (s.soundAck).dt = s.dt := rfl
@[simp] theorem State.soundAck_st : (s.soundAck).st = s.st := rfl
@[simp] theorem State.soundAck_keys : (s.soundAck).keys = s.keys := rfl
@[simp] theorem State.soundAck_fb : (s.soundAck).fb = s.fb := rfl
@[simp] theorem State.soundAck_draw : (s.soundAck).draw = s.draw := rfl
@[simp] theorem State.soundAck_sound : (s.soundAck).sound = false := rfl
@[simp] theorem State.soundAck_fault : (s.soundAck).fault = s.fault := rfl
@[simp] theorem State.soundAck_draws : (s.soundAck).draws = s.draws := rfl

/-! ### `State.skipIf` -/

@[simp] theorem State.skipIf_mem (c : Bool) : (s.skipIf c).mem = s.mem := by cases c <;> rfl
@[simp] theorem State.skipIf_v (c : Bool) : (s.skipIf c).v = s.v := by cases c <;> rfl
@[simp] theorem State.skipIf_pc (c : Bool) : (s.skipIf c).pc = s.pc + (if c then 4 else 2) := by cases c <;> rfl
@[simp] theorem State.skipIf_i (c : Bool) : (s.skipIf c).i = s.i := by cases c <;> rfl
@[simp] theorem State.skipIf_stack (c : Bool) : (s.skipIf c).stack = s.stack := by cases c <;> rfl
@[simp] theorem State.skipIf_sp (c : Bool) : (s.skipIf c).sp = s.sp := by cases c <;> rfl
@[simp] theorem State.skipIf_dt (c : Bool) : (s.skipIf c).dt = s.dt := by cases c <;> rfl
@[simp] theorem State.skipIf_st (c : Bool) : (s.skipIf c).st = s.st := by cases c <;> rfl
@[simp] theorem State.skipIf_keys (c : Bool) : (s.skipIf c).keys = s.keys := by cases c <;> rfl
@[simp] theorem State.skipIf_fb (c : Bool) : (s.skipIf c).fb = s.fb := by cases c <;> rfl
@[simp] theorem State.skipIf_draw (c : Bool) : (s.skipIf c).draw = s.draw := by cases c <;> rfl
@[simp] theorem State.skipIf_sound (c : Bool) : (s.skipIf c).sound = s.sound := by cases c <;> rfl
@[simp] theorem State.skipIf_fault (c : Bool) : (s.skipIf c).fault = s.fault := by cases c <;> rfl
@[simp] theorem State.skipIf_draws (c : Bool) : (s.skipIf c).draws = s.draws := by cases c <;> rfl

/-! ### `State.tickDelay` -/

@[simp] theorem State.tickDelay_mem : (s.tickDelay).mem = s.mem := by unfold State.tickDelay; split <;> rfl
@[simp] theorem State.tickDelay_v : (s.tickDelay).v = s.v := by unfold State.tickDelay; split <;> rfl
@[simp] theorem State.tickDelay_pc : (s.tickDelay).pc = s.pc := by unfold State.tickDelay; split <;> rfl
@[simp] theorem State.tickDelay_i : (s.tickDelay).i = s.i := by unfold State.tickDelay; split <;> rfl
@[simp] theorem State.tickDelay_stack : (s.tickDelay).stack = s.stack := by unfold State.tickDelay; split <;> rfl
@[simp] theorem State.tickDelay_sp : (s.tickDelay).sp = s.sp := by unfold State.tickDelay; split <;> rfl
@[simp] theorem State.tickDelay_st : (s.tickDelay).st = s.st := by unfold State.tickDelay; split <;> rfl
@[simp] theorem State.tickDelay_keys : (s.tickDelay).keys = s.keys := by unfold State.tickDelay; split <;> rfl
@[simp] theorem State.tickDelay_fb : (s.tickDelay).fb = s.fb := by unfold State.tickDelay; split <;> rfl
@[simp] theorem State.tickDelay_draw : (s.tickDelay).draw = s.draw := by unfold State.tickDelay; split <;> rfl
@[simp] theorem State.tickDelay_sound : (s.tickDelay).sound = s.sound := by unfold State.tickDelay; split <;> rfl
@[simp] theorem State.tickDelay_fault : (s.tickDelay).fault = s.fault := by unfold State.tickDelay; split <;> rfl
@[simp] theorem State.tickDelay_draws : (s.tickDelay).draws = s.draws := by unfold State.tickDelay; split <;> rfl

/-! ### `State.tickSound` -/

@[simp] theorem State.tickSound_mem : (s.tickSound).mem = s.mem := by unfold State.tickSound; split <;> rfl
@[simp] theorem State.tickSound_v : (s.tickSound).v = s.v := by unfold State.tickSound; split <;> rfl
@[simp] theorem State.tickSound_pc : (s.tickSound).pc = s.pc := by unfold State.tickSound; split <;> rfl
@[simp] theorem State.tickSound_i : (s.tickSound).i = s.i := by unfold State.tickSound; split <;> rfl
@[simp] theorem State.tickSound_stack : (s.tickSound).stack = s.stack := by unfold State.tickSound; split <;> rfl
@[simp] theorem State.tickSound_sp : (s.tickSound).sp = s.sp := by unfold State.tickSound; split <;> rfl
@[simp] theorem State.tickSound_dt : (s.tickSound).dt = s.dt := by unfold State.tickSound; split <;> rfl
@[simp] theorem State.tickSound_keys : (s.tickSound).keys = s.keys := by unfold State.tickSound; split <;> rfl
@[simp] theorem State.tickSound_fb : (s.tickSound).fb = s.fb := by unfold State.tickSound; split <;> rfl
@[simp] theorem State.tickSound_draw : (s.tickSound).draw = s.draw := by unfold State.tickSound; split <;> rfl
@[simp] theorem State.tickSound_fault : (s.tickSound).fault = s.fault := by unfold State.tickSound; split <;> rfl
@[simp] theorem State.tickSound_draws : (s.tickSound).draws = s.draws := by unfold State.tickSound; split <;> rfl

/-! ### `State.tick` -/

@[simp] theorem State.tick_mem : (s.tick).mem = s.mem := by simp [State.tick]
@[simp] theorem State.tick_v : (s.tick).v = s.v := by simp [State.tick]
@[simp] theorem State.tick_pc : (s.tick).pc = s.pc := by simp [State.tick]
@[simp] theorem State.tick_i : (s.tick).i = s.i := by simp [State.tick]
@[simp] theorem State.tick_stack : (s.tick).stack = s.stack := by simp [State.tick]
@[simp] theorem State.tick_sp : (s.tick).sp = s.sp := by simp [State.tick]
@[simp] theorem State.tick_keys : (s.tick).keys = s.keys := by simp [State.tick]
@[simp] theorem State.tick_fb : (s.tick).fb = s.fb := by simp [State.tick]
@[simp] theorem State.tick_draw : (s.tick).draw = s.draw := by simp [State.tick]
@[simp] theorem State.tick_fault : (s.tick).fault = s.fault := by simp [State.tick]
@[simp] theorem State.tick_draws : (s.tick).draws = s.draws := by simp [State.tick]

/-! ### The tick's own fields (spec/40_cycle.md R125, R126) -/

/-- The delay timer after the tick: one less, and 0 stays 0. -/
theorem State.tick_dt_toNat : s.tick.dt.toNat = s.dt.toNat - 1 := by
  have h : ∀ d : Byte, (if d = 0 then d else d - 1).toNat = d.toNat - 1 := by decide
  have e : s.tick.dt = if s.dt = 0 then s.dt else s.dt - 1 := by
    simp only [State.tick, State.tickSound_dt, State.tickDelay]; split <;> rfl
  rw [e, h]

/-- The sound timer after the tick: one less, and 0 stays 0. -/
theorem State.tick_st_toNat : s.tick.st.toNat = s.st.toNat - 1 := by
  have h : ∀ d : Byte, (if d = 0 then d else d - 1).toNat = d.toNat - 1 := by decide
  have e : s.tick.st = if s.st = 0 then s.st else s.st - 1 := by
    simp only [State.tick, State.tickSound, State.tickDelay_st]; split <;> simp
  rw [e, h]

/-- The sound request after the tick: set when the sound timer was 1, and never cleared. -/
theorem State.tick_sound : s.tick.sound = (s.sound || s.st == 1) := by
  simp only [State.tick, State.tickSound, State.tickDelay_st, State.tickDelay_sound]
  split
  · rename_i h; simp [h]
  · rfl

/-! ### Registers -/

/-- A register just written reads as what was written. -/
@[simp] theorem State.reg_setReg_same (x : Reg) (b : Byte) : (s.setReg x b).reg x = b := by
  simp [State.reg, State.setReg]

/-- Another register reads as before. -/
theorem State.reg_setReg_other {x r : Reg} (b : Byte) (h : r ≠ x) : (s.setReg x b).reg r = s.reg r := by
  simp only [State.reg, State.setReg, Fin.getElem_fin]
  exact Vector.getElem_set_ne _ _ (fun e => h (Fin.ext e.symm))

/-- A register reads the same where only other fields differ. -/
theorem State.reg_congr {s t : State} (h : t.v = s.v) (r : Reg) : t.reg r = s.reg r := by
  simp [State.reg, h]

@[simp] theorem State.reg_advance (k : Word) (r : Reg) : (s.advance k).reg r = s.reg r := rfl

/-- A flag-writing instruction's destination holds the result, also when it is `VF`. -/
@[simp] theorem State.reg_setFlagThenReg_same (c : Bool) (x : Reg) (b : Byte) : (s.setFlagThenReg c x b).reg x = b := by
  simp [State.setFlagThenReg]

/-- `VF` holds the flag when it is not the destination. -/
theorem State.reg_setFlagThenReg_flag (c : Bool) {x : Reg} (b : Byte) (h : x ≠ 15) :
    (s.setFlagThenReg c x b).reg 15 = flagByte c := by
  rw [State.setFlagThenReg, State.reg_setReg_other _ _ (Ne.symm h)]
  exact State.reg_setReg_same s regF _

/-- Any other register reads as before. -/
theorem State.reg_setFlagThenReg_other (c : Bool) {x r : Reg} (b : Byte) (h : r ≠ x) (h15 : r ≠ 15) :
    (s.setFlagThenReg c x b).reg r = s.reg r := by
  rw [State.setFlagThenReg, State.reg_setReg_other _ _ h]
  exact State.reg_setReg_other s _ h15

end Sys2Proof.Machine
end

