-- ==== Sys2Proof/Laws/Ops.lean ====
section
/-! SUPPORT. What each shared operation can do, said once: the ends of the instructions, the keypad operands, the
block transfer of registers, the end of a cycle, and the cycle. -/

namespace Sys2Proof.Machine

/-! ### The ends of the instructions -/

/-- An instruction with accesses ends complete, or in a MemoryFault at the first access that fails. -/
theorem endAccesses_next {bad : Option Nat} {op : Word} {part done t : State}
    (h : endAccesses bad op part done = .next t) :
    (bad = none ∧ t = done) ∨ ∃ a, bad = some a ∧ t = part.raise (.memoryFault a) (some op) := by
  cases bad with
  | none => cases h; exact .inl ⟨rfl, rfl⟩
  | some a => cases h; exact .inr ⟨a, rfl, rfl⟩

/-- A failure is a next state that differs in the latch alone. -/
theorem failWith_next {f : Failure} {op : Word} {s t : State} (h : failWith f op s = .next t) :
    t = s.raise f (some op) := by
  cases h; rfl

/-- A register instruction writes its register and advances. -/
theorem endReg_next {x : Reg} {b : Byte} {s t : State} (h : endReg x b s = .next t) :
    t = (s.setReg x b).advance 2 := by
  cases h; rfl

/-- A flag-writing instruction writes `VF`, then its register, and advances. -/
theorem endFlagReg_next {c : Bool} {x : Reg} {b : Byte} {s t : State} (h : endFlagReg c x b s = .next t) :
    t = (s.setFlagThenReg c x b).advance 2 := by
  cases h; rfl

/-! ### Keys -/

theorem keyIndex_eq_some {b : Byte} {k : Key} : keyIndex b = some k ↔ k.val = b.toNat := by
  unfold keyIndex
  split
  · rename_i h
    simp [Fin.ext_iff, eq_comm]
  · rename_i h
    have := k.isLt
    simp; omega

theorem keyIndex_eq_none {b : Byte} : keyIndex b = none ↔ 15 < b.toNat := by
  unfold keyIndex
  split <;> simp <;> omega

/-- A key skip skips on the key its register names, or fails when its register names none. -/
theorem endKeySkip_next {x : Reg} {op : Word} {p : Bool} {s t : State} (h : endKeySkip x op p s = .next t) :
    (∃ k : Key, k.val = (s.reg x).toNat ∧ t = s.skipIf (s.key k == p)) ∨
      (15 < (s.reg x).toNat ∧ t = s.raise (.keyIndexFault (s.reg x)) (some op)) := by
  unfold endKeySkip at h
  split at h
  · rename_i k hk; cases h; exact .inl ⟨k, keyIndex_eq_some.1 hk, rfl⟩
  · rename_i hk; exact .inr ⟨keyIndex_eq_none.1 hk, failWith_next h⟩

theorem mem_pressedKeys {keys : BitVec 16} {k : Key} : k ∈ pressedKeys keys ↔ keys.getLsbD k.val = true := by
  simp [pressedKeys]

theorem pressedKeys_eq_nil {keys : BitVec 16} : pressedKeys keys = [] ↔ keys = 0 := by
  constructor
  · intro h
    apply BitVec.eq_of_getLsbD_eq
    intro j hj
    have := mt (mem_pressedKeys (keys := keys) (k := ⟨j, hj⟩)).2 (by rw [h]; simp)
    simpa using this
  · rintro rfl
    exact List.eq_nil_iff_forall_not_mem.2 fun k hk => by simpa using mem_pressedKeys.1 hk

/-- The key picked is one of the pressed keys. -/
theorem pickKey_mem (keys : BitVec 16) (k : Key) (more : List Key) : pickKey keys k more ∈ k :: more := by
  unfold pickKey
  split
  · simp
  · rename_i m _
    have h : Config.keywaitPick keys % (more.length + 1) < (k :: more).length := Nat.mod_lt _ (Nat.succ_pos _)
    rw [List.getD_eq_getElem _ _ h]
    exact List.getElem_mem h

/-- A key wait changes nothing, or stores a key that is pressed. -/
theorem execLdVxK_next {x : Reg} {s t : State} (h : execLdVxK x s = .next t) :
    (s.keys = 0 ∧ t = s) ∨
      ∃ k : Key, s.key k = true ∧ t = (s.setReg x (BitVec.ofNat 8 k.val)).advance 2 := by
  unfold execLdVxK at h
  split at h
  · rename_i hk; cases h; exact .inl ⟨pressedKeys_eq_nil.1 hk, rfl⟩
  · rename_i k more hk
    exact .inr ⟨_, mem_pressedKeys.1 (hk ▸ pickKey_mem s.keys k more), endReg_next h⟩

/-! ### Block transfers -/

/-- A block load writes the registers from `k` on and leaves the others. -/
theorem loadFrom_get (k : Nat) (bs : List Byte) (v : Vector Byte 16) (r : Reg) :
    (loadFrom k bs v)[r] = if h : k ≤ r.val ∧ r.val < k + bs.length then bs[r.val - k] else v[r] := by
  induction bs generalizing k v with
  | nil => rw [loadFrom, dif_neg (by simp)]
  | cons b bs ih =>
    rw [loadFrom, ih]
    simp only [Fin.getElem_fin, List.length_cons]
    by_cases h : k + 1 ≤ r.val ∧ r.val < k + 1 + bs.length
    · have e : r.val - k = r.val - (k + 1) + 1 := by omega
      rw [dif_pos h, dif_pos (by omega)]
      simp only [e, List.getElem_cons_succ]
    · rw [dif_neg h, Vector.getElem_setIfInBounds]
      by_cases hk : k = r.val
      · subst hk
        rw [if_pos rfl, dif_pos (by omega)]
        simp
      · rw [if_neg hk, dif_neg (by omega)]

/-- A register after a block load: the byte loaded into it, or as before. -/
theorem State.reg_setFirstRegs (s : State) (bs : List Byte) (r : Reg) :
    (s.setFirstRegs bs).reg r = if h : r.val < bs.length then bs[r.val] else s.reg r := by
  have := loadFrom_get 0 bs s.v r
  simpa [State.reg, State.setFirstRegs] using this

theorem State.length_firstRegs (s : State) (x : Reg) : (s.firstRegs x).length = x.val + 1 := by
  simp [State.firstRegs]

/-- The bytes of a block store are the registers in order. -/
theorem State.firstRegs_get (s : State) (x : Reg) (k : Reg) (h : k.val < (s.firstRegs x).length) :
    (s.firstRegs x)[k.val] = s.reg k := by
  simp [State.firstRegs, State.reg]

/-! ### The cycle (spec/40_cycle.md R120) -/

/-- A cycle that executed an instruction ends with the tick, or as the instruction left the state when it raised. -/
theorem endCycle_next {r : Result} {u : State} (h : endCycle r = .next u) :
    ∃ t, r = .next t ∧ ((t.fault = none ∧ u = t.tick) ∨ (t.fault ≠ none ∧ u = t)) := by
  cases r with
  | next t =>
    refine ⟨t, rfl, ?_⟩
    rw [endCycle] at h
    by_cases hf : t.fault = none
    · rw [hf] at h; cases h; exact .inl ⟨hf, rfl⟩
    · rw [if_pos (Option.isSome_iff_ne_none.2 hf)] at h; cases h; exact .inr ⟨hf, rfl⟩
  | fault r => exact nomatch r
  | refused r => cases h

/-- Everything a step can do: a halted core does nothing, a fetch outside memory and an unrecognized opcode latch
their failures, and an instruction is executed and the cycle ended. -/
theorem step_cases {s u : State} (h : step s = .next u) :
    (s.fault ≠ none ∧ u = s) ∨
    (s.fault = none ∧ 4094 < s.pc.toNat ∧ u = s.raise (.fetchFault s.pc) none) ∨
    (∃ op, s.fault = none ∧ fetch s.mem s.pc = some op ∧ decode op = none ∧
      u = s.raise (.unrecognizedOpcode op) (some op)) ∨
    (∃ op i t, s.fault = none ∧ fetch s.mem s.pc = some op ∧ decode op = some i ∧ exec i s = .next t ∧
      ((t.fault = none ∧ u = t.tick) ∨ (t.fault ≠ none ∧ u = t))) := by
  unfold step cycle at h
  split at h
  · rename_i hf; cases h; exact .inl ⟨by intro e; simp [e] at hf, rfl⟩
  · rename_i hf
    have hf : s.fault = none := by simpa using hf
    split at h
    · rename_i op hop
      unfold runOpcode at h
      split at h
      · rename_i i hi
        obtain ⟨t, ht, hu⟩ := endCycle_next h
        exact .inr (.inr (.inr ⟨op, i, t, hf, hop, hi, ht, hu⟩))
      · rename_i hi; exact .inr (.inr (.inl ⟨op, hf, hop, hi, failWith_next h⟩))
    · rename_i hop; cases h; exact .inr (.inl ⟨hf, fetch_eq_none.1 hop, rfl⟩)

end Sys2Proof.Machine
end

