-- ==== Sys2Proof/Laws/PerInstr.lean ====
section
/-! SUPPORT. Statements for all instructions, made per instruction. RowSelects: an instruction's opcode selects the
instruction's row of the opcode map (spec/30_encoding.md R96: `(op & mask) = match`). -/

namespace Sys2Proof.Laws.RowSelects

/-- The instruction's opcode selects the instruction's row, which is a row of the map. -/
def Statement (i : Instr) : Prop := i.pattern.selects (encode i) = true ∧ i.pattern ∈ opcodeMap

/-! A mask keeps whole fields. -/

theorem selects_F000 (b op : Word) : Pattern.selects ⟨0xF000, b⟩ op = (packXY (fieldH op) 0 0 0 == b) := by
  rw [Pattern.selects, and_F000]

theorem selects_F00F (b op : Word) : Pattern.selects ⟨0xF00F, b⟩ op = (packXY (fieldH op) 0 0 (fieldN op) == b) := by
  rw [Pattern.selects, and_F00F]

theorem selects_F0FF (b op : Word) : Pattern.selects ⟨0xF0FF, b⟩ op = (packXI (fieldH op) 0 (fieldNN op) == b) := by
  rw [Pattern.selects, and_F0FF]

theorem cls (u : Byte) : Statement (.cls u) :=
  ⟨by rw [Instr.pattern, selects_F00F, encode, fieldH_packZ, fieldN_packZ]; rfl, by simp [Instr.pattern, opcodeMap]⟩

theorem ret (u : Byte) : Statement (.ret u) :=
  ⟨by rw [Instr.pattern, selects_F00F, encode, fieldH_packZ, fieldN_packZ]; rfl, by simp [Instr.pattern, opcodeMap]⟩

theorem jp (nnn : Addr) : Statement (.jp nnn) :=
  ⟨by rw [Instr.pattern, selects_F000, encode, fieldH_packA]; rfl, by simp [Instr.pattern, opcodeMap]⟩

theorem call (nnn : Addr) : Statement (.call nnn) :=
  ⟨by rw [Instr.pattern, selects_F000, encode, fieldH_packA]; rfl, by simp [Instr.pattern, opcodeMap]⟩

theorem seImm (x : Reg) (nn : Byte) : Statement (.seImm x nn) :=
  ⟨by rw [Instr.pattern, selects_F000, encode, fieldH_packXI]; rfl, by simp [Instr.pattern, opcodeMap]⟩

theorem sneImm (x : Reg) (nn : Byte) : Statement (.sneImm x nn) :=
  ⟨by rw [Instr.pattern, selects_F000, encode, fieldH_packXI]; rfl, by simp [Instr.pattern, opcodeMap]⟩

theorem seReg (x y : Reg) (u : Nibble) : Statement (.seReg x y u) :=
  ⟨by rw [Instr.pattern, selects_F000, encode, fieldH_packXY]; rfl, by simp [Instr.pattern, opcodeMap]⟩

theorem ldImm (x : Reg) (nn : Byte) : Statement (.ldImm x nn) :=
  ⟨by rw [Instr.pattern, selects_F000, encode, fieldH_packXI]; rfl, by simp [Instr.pattern, opcodeMap]⟩

theorem addImm (x : Reg) (nn : Byte) : Statement (.addImm x nn) :=
  ⟨by rw [Instr.pattern, selects_F000, encode, fieldH_packXI]; rfl, by simp [Instr.pattern, opcodeMap]⟩

theorem ldReg (x y : Reg) : Statement (.ldReg x y) :=
  ⟨by rw [Instr.pattern, selects_F00F, encode, fieldH_packXY, fieldN_packXY]; rfl, by simp [Instr.pattern, opcodeMap]⟩

theorem orReg (x y : Reg) : Statement (.orReg x y) :=
  ⟨by rw [Instr.pattern, selects_F00F, encode, fieldH_packXY, fieldN_packXY]; rfl, by simp [Instr.pattern, opcodeMap]⟩

theorem andReg (x y : Reg) : Statement (.andReg x y) :=
  ⟨by rw [Instr.pattern, selects_F00F, encode, fieldH_packXY, fieldN_packXY]; rfl, by simp [Instr.pattern, opcodeMap]⟩

theorem xorReg (x y : Reg) : Statement (.xorReg x y) :=
  ⟨by rw [Instr.pattern, selects_F00F, encode, fieldH_packXY, fieldN_packXY]; rfl, by simp [Instr.pattern, opcodeMap]⟩

theorem addReg (x y : Reg) : Statement (.addReg x y) :=
  ⟨by rw [Instr.pattern, selects_F00F, encode, fieldH_packXY, fieldN_packXY]; rfl, by simp [Instr.pattern, opcodeMap]⟩

theorem subReg (x y : Reg) : Statement (.subReg x y) :=
  ⟨by rw [Instr.pattern, selects_F00F, encode, fieldH_packXY, fieldN_packXY]; rfl, by simp [Instr.pattern, opcodeMap]⟩

theorem shr (x : Reg) (u : Nibble) : Statement (.shr x u) :=
  ⟨by rw [Instr.pattern, selects_F00F, encode, fieldH_packXY, fieldN_packXY]; rfl, by simp [Instr.pattern, opcodeMap]⟩

theorem subnReg (x y : Reg) : Statement (.subnReg x y) :=
  ⟨by rw [Instr.pattern, selects_F00F, encode, fieldH_packXY, fieldN_packXY]; rfl, by simp [Instr.pattern, opcodeMap]⟩

theorem shl (x : Reg) (u : Nibble) : Statement (.shl x u) :=
  ⟨by rw [Instr.pattern, selects_F00F, encode, fieldH_packXY, fieldN_packXY]; rfl, by simp [Instr.pattern, opcodeMap]⟩

theorem sneReg (x y : Reg) (u : Nibble) : Statement (.sneReg x y u) :=
  ⟨by rw [Instr.pattern, selects_F000, encode, fieldH_packXY]; rfl, by simp [Instr.pattern, opcodeMap]⟩

theorem ldI (nnn : Addr) : Statement (.ldI nnn) :=
  ⟨by rw [Instr.pattern, selects_F000, encode, fieldH_packA]; rfl, by simp [Instr.pattern, opcodeMap]⟩

theorem jpV0 (nnn : Addr) : Statement (.jpV0 nnn) :=
  ⟨by rw [Instr.pattern, selects_F000, encode, fieldH_packA]; rfl, by simp [Instr.pattern, opcodeMap]⟩

theorem rnd (x : Reg) (nn : Byte) : Statement (.rnd x nn) :=
  ⟨by rw [Instr.pattern, selects_F000, encode, fieldH_packXI]; rfl, by simp [Instr.pattern, opcodeMap]⟩

theorem drw (x y : Reg) (n : Nat) : Statement (.drw x y n) :=
  ⟨by rw [Instr.pattern, selects_F000, encode, fieldH_packXY]; rfl, by simp [Instr.pattern, opcodeMap]⟩

theorem skp (x : Reg) : Statement (.skp x) :=
  ⟨by rw [Instr.pattern, selects_F0FF, encode, fieldH_packXI, fieldNN_packXI]; rfl, by simp [Instr.pattern, opcodeMap]⟩

theorem sknp (x : Reg) : Statement (.sknp x) :=
  ⟨by rw [Instr.pattern, selects_F0FF, encode, fieldH_packXI, fieldNN_packXI]; rfl, by simp [Instr.pattern, opcodeMap]⟩

theorem ldVxDt (x : Reg) : Statement (.ldVxDt x) :=
  ⟨by rw [Instr.pattern, selects_F0FF, encode, fieldH_packXI, fieldNN_packXI]; rfl, by simp [Instr.pattern, opcodeMap]⟩

theorem ldVxK (x : Reg) : Statement (.ldVxK x) :=
  ⟨by rw [Instr.pattern, selects_F0FF, encode, fieldH_packXI, fieldNN_packXI]; rfl, by simp [Instr.pattern, opcodeMap]⟩

theorem ldDtVx (x : Reg) : Statement (.ldDtVx x) :=
  ⟨by rw [Instr.pattern, selects_F0FF, encode, fieldH_packXI, fieldNN_packXI]; rfl, by simp [Instr.pattern, opcodeMap]⟩

theorem ldStVx (x : Reg) : Statement (.ldStVx x) :=
  ⟨by rw [Instr.pattern, selects_F0FF, encode, fieldH_packXI, fieldNN_packXI]; rfl, by simp [Instr.pattern, opcodeMap]⟩

theorem addI (x : Reg) : Statement (.addI x) :=
  ⟨by rw [Instr.pattern, selects_F0FF, encode, fieldH_packXI, fieldNN_packXI]; rfl, by simp [Instr.pattern, opcodeMap]⟩

theorem ldF (x : Reg) : Statement (.ldF x) :=
  ⟨by rw [Instr.pattern, selects_F0FF, encode, fieldH_packXI, fieldNN_packXI]; rfl, by simp [Instr.pattern, opcodeMap]⟩

theorem ldB (x : Reg) : Statement (.ldB x) :=
  ⟨by rw [Instr.pattern, selects_F0FF, encode, fieldH_packXI, fieldNN_packXI]; rfl, by simp [Instr.pattern, opcodeMap]⟩

theorem storeRegs (x : Reg) : Statement (.storeRegs x) :=
  ⟨by rw [Instr.pattern, selects_F0FF, encode, fieldH_packXI, fieldNN_packXI]; rfl, by simp [Instr.pattern, opcodeMap]⟩

theorem loadRegs (x : Reg) : Statement (.loadRegs x) :=
  ⟨by rw [Instr.pattern, selects_F0FF, encode, fieldH_packXI, fieldNN_packXI]; rfl, by simp [Instr.pattern, opcodeMap]⟩

end Sys2Proof.Laws.RowSelects
end

