-- ==== Sys2Proof/Tests/Slice0.lean ====
section
/-! SUPPORT. Tests: the refused terms, a word of each constructor written from spec/30_encoding.md R96, single steps
from the vectors of spec/95_test_vectors.md (named in each docstring), and the witnesses that the hypotheses of the
obligations are met. -/

namespace Sys2Proof.Tests

open Sys2Proof.Machine

/-! ### Helpers -/

/-- The registers, 0 but for those listed. -/
def regs (l : List (Reg × Byte)) : Vector Byte 16 := l.foldl (fun v e => v.set e.1.val e.2) (Vector.replicate 16 0)

/-- The framebuffer with the listed cells set. -/
def lit (l : List (Fin 2048)) : Framebuffer := l.foldl Framebuffer.toggle Framebuffer.blank

/-- The stack, 0 but for the entries listed. -/
def stackOf (l : List (Fin 16 × Word)) : Vector Word 16 := l.foldl (fun v e => v.set e.1.val e.2) (Vector.replicate 16 0)

/-- What a next state shows; none of a fault or a refusal. -/
def obs {α : Type} (f : State → α) : Result → Option α
  | .next t => some (f t)
  | .fault _ => none
  | .refused _ => none

/-- One step of the state with the opcode placed at its `PC`. -/
def run (s : State) (op : Nat) : Result := step (s.withFetchWord 16 op)

/-- The reset state with registers. -/
def start (l : List (Reg × Byte)) : State := { State.reset with v := regs l }

/-- The reset state with registers, `I`, and memory above the font. -/
def startMem (l : List (Reg × Byte)) (i : Word) (m : Memory) : State := { start l with i := i, mem := m }

/-! ### WellFormed -/

theorem test_wf_drw_rows_15 : (Instr.drw 0 0 15).WellFormed := by decide
theorem test_wf_drw_rows_16_refused : ¬ (Instr.drw 0 0 16).WellFormed := by decide

/-! ### Decoding and encoding, a word of each constructor (R96) -/

theorem test_word_cls : decode 0x00E0 = some (.cls 0x0E) ∧ encode (.cls 0x0E) = 0x00E0 := by decide
theorem test_word_ret : decode 0x00EE = some (.ret 0x0E) ∧ encode (.ret 0x0E) = 0x00EE := by decide
theorem test_word_jp : decode 0x1ABC = some (.jp 0xABC) ∧ encode (.jp 0xABC) = 0x1ABC := by decide
theorem test_word_call : decode 0x220A = some (.call 0x20A) ∧ encode (.call 0x20A) = 0x220A := by decide
theorem test_word_seImm : decode 0x332A = some (.seImm 3 0x2A) ∧ encode (.seImm 3 0x2A) = 0x332A := by decide
theorem test_word_sneImm : decode 0x432A = some (.sneImm 3 0x2A) ∧ encode (.sneImm 3 0x2A) = 0x432A := by decide
theorem test_word_seReg : decode 0x512F = some (.seReg 1 2 15) ∧ encode (.seReg 1 2 15) = 0x512F := by decide
theorem test_word_ldImm : decode 0x6A7F = some (.ldImm 10 0x7F) ∧ encode (.ldImm 10 0x7F) = 0x6A7F := by decide
theorem test_word_addImm : decode 0x7202 = some (.addImm 2 2) ∧ encode (.addImm 2 2) = 0x7202 := by decide
theorem test_word_ldReg : decode 0x8AB0 = some (.ldReg 10 11) ∧ encode (.ldReg 10 11) = 0x8AB0 := by decide
theorem test_word_orReg : decode 0x8AB1 = some (.orReg 10 11) ∧ encode (.orReg 10 11) = 0x8AB1 := by decide
theorem test_word_andReg : decode 0x8AB2 = some (.andReg 10 11) ∧ encode (.andReg 10 11) = 0x8AB2 := by decide
theorem test_word_xorReg : decode 0x8AB3 = some (.xorReg 10 11) ∧ encode (.xorReg 10 11) = 0x8AB3 := by decide
theorem test_word_addReg : decode 0x8AB4 = some (.addReg 10 11) ∧ encode (.addReg 10 11) = 0x8AB4 := by decide
theorem test_word_subReg : decode 0x8AB5 = some (.subReg 10 11) ∧ encode (.subReg 10 11) = 0x8AB5 := by decide
theorem test_word_shr : decode 0x8476 = some (.shr 4 7) ∧ encode (.shr 4 7) = 0x8476 := by decide
theorem test_word_subnReg : decode 0x8AB7 = some (.subnReg 10 11) ∧ encode (.subnReg 10 11) = 0x8AB7 := by decide
theorem test_word_shl : decode 0x847E = some (.shl 4 7) ∧ encode (.shl 4 7) = 0x847E := by decide
theorem test_word_sneReg : decode 0x9127 = some (.sneReg 1 2 7) ∧ encode (.sneReg 1 2 7) = 0x9127 := by decide
theorem test_word_ldI : decode 0xA2F0 = some (.ldI 0x2F0) ∧ encode (.ldI 0x2F0) = 0xA2F0 := by decide
theorem test_word_jpV0 : decode 0xB300 = some (.jpV0 0x300) ∧ encode (.jpV0 0x300) = 0xB300 := by decide
theorem test_word_rnd : decode 0xC30F = some (.rnd 3 0x0F) ∧ encode (.rnd 3 0x0F) = 0xC30F := by decide
theorem test_word_drw : decode 0xD12F = some (.drw 1 2 15) ∧ encode (.drw 1 2 15) = 0xD12F := by decide
theorem test_word_skp : decode 0xE59E = some (.skp 5) ∧ encode (.skp 5) = 0xE59E := by decide
theorem test_word_sknp : decode 0xE5A1 = some (.sknp 5) ∧ encode (.sknp 5) = 0xE5A1 := by decide
theorem test_word_ldVxDt : decode 0xF307 = some (.ldVxDt 3) ∧ encode (.ldVxDt 3) = 0xF307 := by decide
theorem test_word_ldVxK : decode 0xF20A = some (.ldVxK 2) ∧ encode (.ldVxK 2) = 0xF20A := by decide
theorem test_word_ldDtVx : decode 0xF015 = some (.ldDtVx 0) ∧ encode (.ldDtVx 0) = 0xF015 := by decide
theorem test_word_ldStVx : decode 0xF018 = some (.ldStVx 0) ∧ encode (.ldStVx 0) = 0xF018 := by decide
theorem test_word_addI : decode 0xF21E = some (.addI 2) ∧ encode (.addI 2) = 0xF21E := by decide
theorem test_word_ldF : decode 0xF029 = some (.ldF 0) ∧ encode (.ldF 0) = 0xF029 := by decide
theorem test_word_ldB : decode 0xF533 = some (.ldB 5) ∧ encode (.ldB 5) = 0xF533 := by decide
theorem test_word_storeRegs : decode 0xF355 = some (.storeRegs 3) ∧ encode (.storeRegs 3) = 0xF355 := by decide
theorem test_word_loadRegs : decode 0xF265 = some (.loadRegs 2) ∧ encode (.loadRegs 2) = 0xF265 := by decide

/-- V-DEC-1 and V-DEC-2: all six fields. -/
theorem test_fields : fieldsOf 0xD12F = ⟨0xD, 1, 2, 0xF, 0x2F, 0x12F⟩ ∧ fieldsOf 0x8AB4 = ⟨8, 0xA, 0xB, 4, 0xB4, 0xAB4⟩ := by
  decide

/-- V-DEC-5: legal words outside the canonical patterns. -/
theorem test_legal : decode 0x0000 = some (.cls 0) ∧ decode 0x0FFE = some (.ret 0xFF) ∧ decode 0x9ABF = some (.sneReg 10 11 15) ∧
    decode 0x80FE = some (.shl 0 15) := by decide

/-- V-DEC-5: illegal words of each group. -/
theorem test_illegal : [0x0001, 0x00FF, 0x00E1, 0x8008, 0x800F, 0xE000, 0xE19F, 0xE0A0, 0xF000, 0xF1FF, 0xF056,
    0xF100].map decode = List.replicate 12 none := by decide

/-- V-DEC-3: the first byte of memory is the high byte. -/
theorem test_decodeBytes : decodeBytes [0x12, 0x34, 0x56] = .ok (.jp 0x234, [0x56]) := by rfl
theorem test_decodeBytes_truncated : decodeBytes [0x12] = .error .truncated := by rfl
theorem test_decodeBytes_illegal : decodeBytes [0x00, 0xFF] = .error (.unrecognizedOpcode 0x00FF) := by rfl
theorem test_decodeTableWord : decodeTableWord 16 0xD12F = some (.drw 1 2 15) ∧ decodeTableWord 16 0x8008 = none := by decide

/-- R96: 34 rows, pairwise disjoint: two rows differ in a bit that both fix. -/
theorem test_opcodeMap : opcodeMap.length = 34 ∧
    opcodeMap.Pairwise (fun p q => p.bits &&& (p.mask &&& q.mask) ≠ q.bits &&& (p.mask &&& q.mask)) := by decide

/-! ### Fetch and failures -/

/-- V-FLT-1. -/
theorem test_fetchFault : obs (fun t => (t.fault, t.pc)) (step { State.reset with pc := 0xFFF }) =
    some (some ⟨.fetchFault 0xFFF, none⟩, 0xFFF) := by decide

/-- V-FLT-2: the last legal fetch. -/
theorem test_lastFetch : obs (fun t => (t.reg 0, t.pc)) (run { State.reset with pc := 0xFFE } 0x6007) = some (7, 0x1000) := by
  decide

/-- V-TMR-13, V-SRC-9: an unrecognized opcode, and no tick. -/
theorem test_unrecognized : obs (fun t => (t.fault, t.dt, t.st, t.pc)) (run { State.reset with dt := 5, st := 1 } 0x00FF) =
    some (some ⟨.unrecognizedOpcode 0xFF, some 0xFF⟩, 5, 1, 0x200) := by decide

/-- V-TMR-10, and V-TMR-12's `SOUND` that stays. -/
theorem test_tick : obs (fun t => (t.dt, t.st, t.sound)) (run { State.reset with dt := 1, st := 1 } 0x6000) = some (0, 0, true) ∧
    obs (fun t => (t.dt, t.sound)) (run { State.reset with dt := 255, sound := true } 0x6000) = some (254, true) := by decide

/-- Codes of R210. -/
theorem test_codes : Failure.code (.unrecognizedOpcode 0) = 1 ∧ Failure.code (.keyIndexFault 16) = 7 := by decide

/-- R225: the context of a failed draw. -/
theorem test_diagnostics : ((State.reset.raise (.memoryFault 4096) (some 0xD122)).diagnostics.map fun d =>
    (d.opcode, d.fb.isSome, d.fields.map (·.n))) = some (some 0xD122, true, some 2) := by decide

/-- V-RST-1 on a halted state. -/
theorem test_reset : ({ start [(3, 9)] with pc := 7, draw := true, fault := some ⟨.stackOverflow, none⟩ }.hostMove .reset) =
    State.reset := by decide

/-- R247: bytes and keys the host writes. -/
theorem test_hostMoves : (State.reset.hostMove (.memWrite 0x200 0xBF)).mem.read 0x200 = 0xBF ∧
    ((State.reset.hostMove (.keyWrite 15 true)).hostMove (.keyWrite 15 false)).keys = 0 ∧
    (State.reset.hostMove (.keyWrite 7 true)).key 7 = true := by decide

/-- R244: program byte `k` goes to 0x200 + `k`. -/
theorem test_loadRom : (State.reset.loadRom [0x60, 0x05, 0x61]).map (fun s => (s.mem.read 0x200, s.mem.read 0x202, s.mem.read 0x203)) =
    some (0x60, 0x61, 0) := by decide

/-- A byte equal to what reset left is not listed. -/
theorem test_canonical : (Memory.write [(0x300, 1), (0x302, 2)] 0x301 7 = [(0x300, 1), (0x301, 7), (0x302, 2)]) ∧
    Memory.write [(0x300, 1), (0x302, 2)] 0x302 0 = [(0x300, 1)] := by decide

/-! ### Control transfer and skips -/

/-- V-FLOW-1 and V-FLOW-2. -/
theorem test_ret : obs (fun t => (t.pc, t.sp, t.stack[0])) (run { State.reset with pc := 0x20C, sp := 1, stack := stackOf [(0, 0x204)] } 0x00EE) =
    some (0x206, 0, 0x204) := by decide
theorem test_ret_empty : obs (fun t => (t.fault, t.pc)) (run { State.reset with pc := 0x20C } 0x00EE) =
    some (some ⟨.stackUnderflow, some 0xEE⟩, 0x20C) := by decide
/-- V-FLOW-4. -/
theorem test_jp : obs State.pc (run State.reset 0x1ABC) = some 0xABC := by decide
/-- V-FLOW-8 and V-FLOW-9. -/
theorem test_call : obs (fun t => (t.pc, t.sp, t.stack[15])) (run { State.reset with pc := 0x250, sp := 15 } 0x2300) =
    some (0x300, 16, 0x250) := by decide
theorem test_call_full : obs (fun t => (t.fault, t.pc, t.sp)) (run { State.reset with pc := 0x250, sp := 16 } 0x2300) =
    some (some ⟨.stackOverflow, some 0x2300⟩, 0x250, 16) := by decide
/-- V-FLOW-11 and V-FLOW-12. -/
theorem test_jpV0 : obs State.pc (run (start [(0, 0xFF)]) 0xBFFF) = some 0x10FE := by decide
theorem test_jpV0_register : obs State.pc (run (start [(0, 2), (2, 0x55)]) 0xB201) = some 0x203 := by decide
/-- V-SKIP-1 to V-SKIP-10. -/
theorem test_seImm : obs State.pc (run (start [(10, 0x42)]) 0x3A42) = some 0x204 ∧ obs State.pc (run (start [(10, 0x43)]) 0x3A42) = some 0x202 := by decide
theorem test_sneImm : obs State.pc (run (start [(10, 0x42)]) 0x4A42) = some 0x202 ∧ obs State.pc (run (start [(10, 0x43)]) 0x4A42) = some 0x204 := by decide
theorem test_seReg : obs State.pc (run (start [(1, 7), (2, 7)]) 0x512F) = some 0x204 ∧ obs State.pc (run (start [(1, 7), (2, 8)]) 0x5120) = some 0x202 := by decide
theorem test_sneReg : obs State.pc (run (start [(1, 7), (2, 7)]) 0x9120) = some 0x202 ∧ obs State.pc (run (start [(1, 7), (2, 8)]) 0x9127) = some 0x204 := by decide

/-! ### Registers -/

/-- The registers named and `PC` after a step. -/
def regsAfter (s : State) (op : Nat) (l : List Reg) : Option (List Byte × Word) := obs (fun t => (l.map t.reg, t.pc)) (run s op)

/-- V-ALU-1, V-ALU-3 and V-ALU-4. -/
theorem test_ldImm : regsAfter State.reset 0x6A7F [10, 15] = some ([0x7F, 0], 0x202) := by decide
theorem test_addImm : regsAfter (start [(2, 0xFF)]) 0x7202 [2, 15] = some ([1, 0], 0x202) := by decide
theorem test_addImm_vf : regsAfter (start [(15, 0xFF)]) 0x7F01 [15] = some ([0], 0x202) := by decide
/-- V-ALU-5 to V-ALU-8. -/
theorem test_ldReg : regsAfter (start [(1, 0x33)]) 0x8010 [0, 1] = some ([0x33, 0x33], 0x202) := by decide
theorem test_orReg : regsAfter (start [(0, 0xF0), (1, 0x0F), (15, 0x77)]) 0x8011 [0, 15] = some ([0xFF, 0x77], 0x202) := by decide
theorem test_andReg : regsAfter (start [(0, 0xF3), (1, 0x3F), (15, 0x77)]) 0x8012 [0, 15] = some ([0x33, 0x77], 0x202) := by decide
theorem test_xorReg : regsAfter (start [(0, 0xFF), (1, 0x0F), (15, 0x77)]) 0x8013 [0, 15] = some ([0xF0, 0x77], 0x202) := by decide
/-- V-ALU-9 and V-ALU-20: the carry, and the carry lost. -/
theorem test_addReg : regsAfter (start [(1, 0xC8), (2, 0x64)]) 0x8124 [1, 15] = some ([0x2C, 1], 0x202) := by decide
theorem test_addReg_vf : regsAfter (start [(15, 0xF0), (1, 0x20)]) 0x8F14 [15] = some ([0x10], 0x202) := by decide
/-- V-ALU-14 and V-ALU-15: a borrow, and none of equal operands. -/
theorem test_subReg_borrow : regsAfter (start [(1, 3), (2, 5), (15, 1)]) 0x8125 [1, 15] = some ([0xFE, 0], 0x202) := by decide
theorem test_subReg_equal : regsAfter (start [(1, 7), (2, 7)]) 0x8125 [1, 15] = some ([0, 1], 0x202) := by decide
/-- V-ALU-18 and V-ALU-24. -/
theorem test_shr : regsAfter (start [(4, 5), (7, 0xAA)]) 0x8476 [4, 15, 7] = some ([2, 1, 0xAA], 0x202) := by decide
theorem test_shr_vf : regsAfter (start [(15, 5)]) 0x8F06 [15] = some ([2], 0x202) := by decide
/-- V-ALU-16 and V-ALU-23. -/
theorem test_subnReg : regsAfter (start [(1, 3), (2, 5)]) 0x8127 [1, 15] = some ([2, 1], 0x202) := by decide
theorem test_subnReg_vf : regsAfter (start [(1, 3), (15, 2)]) 0x81F7 [1, 15] = some ([0xFF, 0], 0x202) := by decide
/-- V-ALU-19 and V-ALU-19b. -/
theorem test_shl : regsAfter (start [(4, 0x81)]) 0x840E [4, 15] = some ([2, 1], 0x202) := by decide
theorem test_shl_y : regsAfter (start [(4, 0x7F), (7, 0xAA), (15, 1)]) 0x847E [4, 15, 7] = some ([0xFE, 0, 0xAA], 0x202) := by decide
/-- R171: the draw masked, and another draw next. -/
theorem test_rnd : obs (fun t => (t.reg 3, t.draws)) (run State.reset 0xC30F) = some (Config.rnd 0 &&& 0x0F, 1) := by rfl

/-! ### Index register and memory -/

/-- V-IDX-1. -/
theorem test_ldI : obs (fun t => (t.i, t.pc)) (run { State.reset with i := 0xF123 } 0xA2F0) = some (0x2F0, 0x202) := by decide
/-- V-IDX-4 and V-IDX-6. -/
theorem test_addI_wrap : obs (fun t => (t.i, t.reg 15)) (run (startMem [(2, 2)] 0xFFFF []) 0xF21E) = some (1, 1) := by decide
theorem test_addI_vf : obs (fun t => (t.i, t.reg 15)) (run (startMem [(15, 2)] 0x0FFE []) 0xFF1E) = some (0x1000, 1) := by decide
/-- V-IDX-8: the register is not masked to a digit. -/
theorem test_ldF : obs State.i (run (start [(0, 0xFF)]) 0xF029) = some 0x4FB := by decide
/-- V-IDX-9 and V-IDX-13. -/
theorem test_ldB : obs (fun t => (t.mem.read 0x300, t.mem.read 0x301, t.mem.read 0x302, t.i)) (run (startMem [(5, 156)] 0x300 []) 0xF533) =
    some (1, 5, 6, 0x300) := by decide
theorem test_ldB_past : obs (fun t => (t.mem.read 0xFFE, t.mem.read 0xFFF, t.fault, t.pc)) (run (startMem [(5, 123)] 0xFFE []) 0xF533) =
    some (1, 2, some ⟨.memoryFault 0x1000, some 0xF533⟩, 0x200) := by decide
/-- V-IDX-15 and V-IDX-17. -/
theorem test_storeRegs : obs (fun t => (t.mem.read 0x300, t.mem.read 0x303, t.mem.read 0x304, t.i))
    (run (startMem [(0, 0x11), (1, 0x22), (2, 0x33), (3, 0x44), (4, 0x55)] 0x300 []) 0xF355) = some (0x11, 0x44, 0, 0x304) := by decide
theorem test_storeRegs_past : obs (fun t => (t.mem.read 0xFFF, t.i, t.fault, t.pc)) (run (startMem [(0, 0xAB), (1, 0xCD)] 0xFFF []) 0xF155) =
    some (0xAB, 0xFFF, some ⟨.memoryFault 0x1000, some 0xF155⟩, 0x200) := by decide
/-- V-IDX-18 and V-IDX-19. -/
theorem test_loadRegs : obs (fun t => ([0, 1, 2, 3, 4].map t.reg, t.i))
    (run (startMem [(4, 0x99)] 0x300 [(0x300, 1), (0x301, 2), (0x302, 3), (0x303, 4), (0x304, 5)]) 0xF365) =
    some ([1, 2, 3, 4, 0x99], 0x304) := by decide
theorem test_loadRegs_past : obs (fun t => (t.reg 0, t.reg 1, t.i, t.fault)) (run (startMem [] 0xFFF [(0xFFF, 0x42)]) 0xF165) =
    some (0x42, 0, 0xFFF, some ⟨.memoryFault 0x1000, some 0xF165⟩) := by decide

/-! ### Display -/

/-- V-DRW-15. -/
theorem test_cls : obs (fun t => (t.fb, t.draw, t.reg 15, t.pc)) (run { start [(15, 1)] with fb := lit [0, 100, 2047] } 0x00E0) =
    some (lit [], true, 1, 0x202) := by decide
/-- V-DRW-7: a collision in the first of two rows. -/
theorem test_drw_collision : obs (fun t => (t.fb, t.reg 15, t.draw, t.pc))
    (run { startMem [(1, 4), (2, 2)] 0x300 [(0x300, 0xA5), (0x301, 0x81)] with fb := lit [132] } 0xD122) =
    some (lit [134, 137, 139, 196, 203], 1, true, 0x202) := by decide
/-- V-DRW-4: no wrap per axis. -/
theorem test_drw_wrap : obs (fun t => (t.fb, t.reg 15)) (run (startMem [(1, 60), (2, 31)] 0x300 [(0x300, 0xFF)]) 0xD121) =
    some (lit [2044, 2045, 2046, 2047, 0, 1, 2, 3], 0) := by decide
/-- V-DRW-12: the rows before the failure stay drawn. -/
theorem test_drw_past : obs (fun t => (t.fb, t.draw, t.fault)) (run (startMem [] 0xFFF [(0xFFF, 0xF0)]) 0xD122) =
    some (lit [0, 1, 2, 3], false, some ⟨.memoryFault 0x1000, some 0xD122⟩) := by decide

/-! ### Keypad and timers -/

/-- V-KEY-1 to V-KEY-6. -/
theorem test_skp : obs State.pc (run { start [(5, 10)] with keys := 0x0400 } 0xE59E) = some 0x204 ∧
    obs State.pc (run (start [(5, 10)]) 0xE59E) = some 0x202 := by decide
theorem test_skp_index : obs (fun t => (t.fault, t.pc)) (run { start [(5, 16)] with keys := 1 } 0xE59E) =
    some (some ⟨.keyIndexFault 16, some 0xE59E⟩, 0x200) := by decide
theorem test_sknp : obs State.pc (run { start [(5, 10)] with keys := 0x0400 } 0xE5A1) = some 0x202 ∧
    obs State.pc (run (start [(5, 10)]) 0xE5A1) = some 0x204 := by decide
theorem test_sknp_index : obs State.fault (run (start [(5, 0xFF)]) 0xE5A1) = some (some ⟨.keyIndexFault 0xFF, some 0xE5A1⟩) := by
  decide
/-- V-KEY-8 and V-KEY-10. -/
theorem test_ldVxK : obs (fun t => (t.reg 2, t.pc)) (run { State.reset with keys := 0x80 } 0xF20A) = some (7, 0x202) := by decide
theorem test_ldVxK_waiting : obs (fun t => (t.dt, t.st, t.sound, t.pc)) (run { State.reset with dt := 5, st := 1 } 0xF20A) =
    some (4, 0, true, 0x200) := by decide
/-- V-TMR-1, V-TMR-4 and V-TMR-8. -/
theorem test_ldVxDt : obs (fun t => (t.reg 3, t.dt)) (run { State.reset with dt := 5 } 0xF307) = some (5, 4) := by decide
theorem test_ldDtVx : obs State.dt (run (start [(0, 3)]) 0xF015) = some 2 := by decide
theorem test_ldStVx : obs (fun t => (t.st, t.sound)) (run (start [(0, 1)]) 0xF018) = some (0, true) := by decide

/-! ### Witnesses: the hypotheses of each obligation, met, each clause at a boundary -/

/-- The state whose next cycle fetches the opcode. -/
def fetching (s : State) (op : Nat) : State := s.withFetchWord 16 op

theorem witness_DecodeOfEncode : (Instr.drw 15 15 15).WellFormed ∧ (Instr.drw 0 0 0).WellFormed := by decide

theorem witness_EncodeOfDecode : decode 0xD12F = some (.drw 1 2 15) ∧ decode 0x0FFE = some (.ret 0xFF) := by decide

theorem witness_OpcodeMapSelectsTheInstruction : decode 0x8AB4 = some (.addReg 10 11) ∧
    ⟨0xF00F, 0x8004⟩ ∈ opcodeMap ∧ Pattern.selects ⟨0xF00F, 0x8004⟩ 0x8AB4 = true := by decide

theorem witness_IllegalOpcodesSelectNothing : decode 0x800D = none ∧ IllegalOpcode 0x800D := by
  unfold IllegalOpcode; decide

/-- The highest `PC` with a fetch; the instruction completes, and on an empty stack a return does not. -/
theorem witness_StepRunsTheDecodedInstruction :
    (∃ s t i, s.Running ∧ s.pc.toNat = 4094 ∧ i.WellFormed ∧
      decodeBytes [s.mem.read s.pc.toNat, s.mem.read (s.pc.toNat + 1)] = .ok (i, []) ∧ exec i s = .next t ∧ t.Running) ∧
    (∃ s t i, s.Running ∧ s.pc.toNat ≤ 4094 ∧ i.WellFormed ∧
      decodeBytes [s.mem.read s.pc.toNat, s.mem.read (s.pc.toNat + 1)] = .ok (i, []) ∧ exec i s = .next t ∧ ¬ t.Running) :=
  ⟨⟨fetching { State.reset with pc := 0xFFE } 0x6007, _, .ldImm 0 7, rfl, rfl, rfl, rfl, rfl, rfl⟩,
    ⟨fetching State.reset 0x00EE, _, .ret 0x0E, rfl, by decide, rfl, rfl, rfl, by decide⟩⟩

theorem witness_FetchOutsideMemoryLatches : ({ State.reset with pc := 0xFFF } : State).Running ∧
    4094 < ({ State.reset with pc := 0xFFF } : State).pc.toNat := by decide

theorem witness_UnrecognizedOpcodeChangesOnlyTheLatch :
    ((fetching State.reset 0x00FF).Running ∧ (fetching State.reset 0x00FF).opcode = some 0x00FF ∧ IllegalOpcode 0x00FF) ∧
    ((fetching State.reset 0x00EE).opcode = some 0x00EE ∧ ¬ IllegalOpcode 0x00EE ∧
      ∃ t, step (fetching State.reset 0x00EE) = .next t) := by
  refine ⟨⟨rfl, by decide, ?_⟩, by decide, ?_, _, rfl⟩ <;> unfold IllegalOpcode <;> decide

/-- A halted core. -/
def halted : State := { State.reset with sp := 0, fault := some ⟨.stackUnderflow, some 0x00EE⟩ }

theorem witness_HaltedStepDoesNothing : ¬ halted.Running := by decide

/-- The sound timer at its boundary, and the instruction complete. -/
theorem witness_TickAfterTheInstruction : ∃ s t i, s.Running ∧ s.instr = some i ∧ exec i s = .next t ∧ t.Running ∧
    t.st.toNat = 1 ∧ t.dt.toNat = 0 :=
  ⟨fetching { State.reset with st := 1 } 0x6000, _, .ldImm 0 0, rfl, by decide, rfl, rfl, rfl, rfl⟩

/-- A cycle that fails with a partial effect: two digits stored. -/
theorem witness_FailingCycleDoesNotTick : ∃ s t, s.Running ∧ step s = .next t ∧ ¬ t.Running ∧ t.mem.read 0xFFF = 2 ∧
    s.mem.read 0xFFF = 0 :=
  ⟨fetching (startMem [(5, 123)] 0xFFE []) 0xF533, _, rfl, rfl, by decide, by decide, by decide⟩

theorem witness_OnlyMemoryFaultsLeavePartialEffects : ∃ s t l, s.Running ∧ step s = .next t ∧ t.fault = some l ∧
    ∀ a, l.failure ≠ .memoryFault a :=
  ⟨fetching State.reset 0x00EE, _, ⟨.stackUnderflow, some 0x00EE⟩, rfl, rfl, by decide, fun _ h => by cases h⟩

theorem witness_FailureRecordsTheFetchedOpcode : ∃ s t l, s.Running ∧ s.opcode = some 0xF533 ∧ step s = .next t ∧
    t.fault = some l :=
  ⟨fetching (startMem [(5, 123)] 0xFFE []) 0xF533, _, ⟨.memoryFault 0x1000, some 0xF533⟩, rfl, by decide, rfl, by decide⟩

/-- A consistent latch that is set, and one that is not and is set by the step. -/
theorem witness_LatchConsistentKeptByStep : (halted.LatchConsistent ∧ ∃ t, step halted = .next t) ∧
    ∃ s t, s.LatchConsistent ∧ step s = .next t ∧ s.Running ∧ ¬ t.Running :=
  ⟨⟨fun l h => by cases h; exact ⟨rfl, 0x00EE, 0x0E, rfl, by decide⟩, _, rfl⟩,
    fetching State.reset 0x00EE, _, fun l h => (by cases h), rfl, rfl, by decide⟩

/-- The invariant at its bounds: `PC` 0x10FE, one live return address 0x0FFE, one byte listed. -/
theorem witness_InvKeptByStep : ∃ s t, State.Inv s ∧ step s = .next t ∧ s.pc = 0x10FE ∧ s.sp = 1 ∧ s.stack[0] = 0xFFE :=
  ⟨{ State.reset with pc := 0x10FE, sp := 1, stack := stackOf [(0, 0xFFE)], mem := [(0xFFF, 1)] }, _,
    ⟨by decide, by decide, by decide⟩, rfl, rfl, rfl, by decide⟩

theorem witness_HostMovesKeepTheInvariants : State.reset.Inv ∧ halted.Inv ∧ halted.LatchConsistent :=
  ⟨⟨rfl, by decide, by decide⟩, ⟨rfl, by decide, by decide⟩, witness_LatchConsistentKeptByStep.1.1⟩

/-- A state that is reached by a move of the host and a cycle. -/
theorem witness_ReachableStatesMeetTheInvariants : ∃ s, Reachable s ∧ s.pc = 0x202 ∧ s.key 7 = true :=
  ⟨_, .cycle (.hostMove (.keyWrite 7 true) .reset) rfl, by decide, by decide⟩

/-- The last font byte and the two ends of the zeroed range. -/
theorem witness_ResetLeavesTheListedValues : 79 < 80 ∧ (80 ≤ 80 ∧ 80 < 4096) ∧ (80 ≤ 4095 ∧ 4095 < 4096) := by decide

theorem witness_ResetMoveForgetsTheState : ¬ halted.Running ∧ HostMove.drawAck ≠ .reset ∧ ∃ t, step halted = .next t :=
  ⟨by decide, by decide, _, rfl⟩

/-- Programs of the greatest length and of one byte more. -/
theorem witness_ProgramLoadPlacesTheBytes : (List.replicate 3584 (0 : Byte)).length ≤ 3584 ∧
    3584 < (List.replicate 3585 (0 : Byte)).length := by
  simp only [List.length_replicate]; decide

theorem witness_CanonicalMemoriesWithEqualBytesAreEqual :
    Memory.wf [(0x300, 1), (0xFFF, 2)] = true ∧ Memory.wf (Memory.write [(0xFFF, 2)] 0x300 1) = true ∧
      ∀ a, Memory.read [(0x300, 1), (0xFFF, 2)] a = Memory.read (Memory.write [(0xFFF, 2)] 0x300 1) a :=
  ⟨by decide, by decide, fun _ => rfl⟩

theorem witness_StoredRegistersAreFetched :
    1 ≤ (1 : Reg).val ∧ (startMem [] 0xFFE []).i.toNat + (1 : Reg).val ≤ 4095 := by decide

/-- A blank screen and a one-bit sprite at (0, 0). -/
def dot : State := startMem [] 0x300 [(0x300, 0x80)]

theorem dot_covers : SpriteCovers dot 0 0 1 0 := ⟨0, 0, by decide⟩

theorem dot_covers_no_other (c : Fin 2048) (h : c ≠ 0) : ¬ SpriteCovers dot 0 0 1 c := by
  rintro ⟨row, col, hr, hc, hb, he⟩
  obtain rfl : row = 0 := by omega
  have h0 : (∀ col < 8, (dot.mem.read (dot.i.toNat + 0)).getLsbD (7 - col) = true → col = 0) := by decide
  obtain rfl := h0 col hc hb
  exact h (Fin.ext (by rw [he]; decide))

/-- The last sprite inside memory, a sprite of no rows at the highest `I`, cells covered and not covered, and a
collision and none. -/
theorem witness_DrwDrawsTheSprite :
    ((15 : Nat) < 16 ∧ (startMem [] 4081 []).i.toNat + 15 ≤ 4096) ∧ ((0 : Nat) < 16 ∧ (startMem [] 0xFFFF []).i = 0xFFFF) ∧
    (SpriteCovers dot 0 0 1 0 ∧ ¬ SpriteCovers dot 0 0 1 1) ∧
    (∃ c, SpriteCovers { dot with fb := lit [0] } 0 0 1 c ∧ Framebuffer.cell ({ dot with fb := lit [0] } : State).fb c = true) ∧
    ¬ ∃ c, SpriteCovers dot 0 0 1 c ∧ Framebuffer.cell dot.fb c = true := by
  refine ⟨by decide, by decide, ⟨dot_covers, dot_covers_no_other 1 (by decide)⟩, ⟨0, dot_covers, by decide⟩, ?_⟩
  rintro ⟨c, hc, hs⟩
  by_cases h : c = 0
  · subst h; revert hs; decide
  · exact dot_covers_no_other c h hc

/-- The first sprites past memory, and a row drawn before the failure. -/
theorem witness_DrwPastMemoryLatches : 4096 < (startMem [] 4096 []).i.toNat + 1 ∧ 4096 < (startMem [] 4082 []).i.toNat + 15 ∧
    SpriteCovers (startMem [] 0xFFF [(0xFFF, 0xF0)]) 0 0 (4096 - (startMem [] 0xFFF [(0xFFF, 0xF0)]).i.toNat) 3 := by
  refine ⟨by decide, by decide, 0, 3, by decide⟩

theorem witness_RetResumesAfterTheCall : (0 : Fin 16).val + 1 = ({ State.reset with sp := 1 } : State).sp.val ∧
    (15 : Fin 16).val + 1 = ({ State.reset with sp := 16 } : State).sp.val := by decide

theorem witness_StackFailuresLatch : State.reset.sp.val = 0 ∧ ({ State.reset with sp := 16 } : State).sp.val = 16 := by decide

/-- Jumps to the last address, which the next fetch cannot read. -/
theorem witness_JumpsSetThePc : (∃ t, exec (.jp 0xFFF) State.reset = .next t ∧ t.Running ∧ 4094 < t.pc.toNat) ∧
    ∃ t, exec (.jpV0 0xFFF) (start [(0, 0xFF)]) = .next t ∧ t.Running ∧ 4094 < t.pc.toNat :=
  ⟨⟨_, rfl, rfl, by decide⟩, _, rfl, rfl, by decide⟩

theorem witness_CallPushesItsOwnAddress : (0 : Fin 16).val = State.reset.sp.val ∧
    (15 : Fin 16).val = ({ State.reset with sp := 15 } : State).sp.val := by decide

/-- The last free entry, which is the stale one after, and its neighbour, which is not. -/
theorem witness_CallThenRetResumes : ({ State.reset with sp := 15 } : State).sp.val < 16 ∧
    (15 : Fin 16).val = ({ State.reset with sp := 15 } : State).sp.val ∧
    (14 : Fin 16).val ≠ ({ State.reset with sp := 15 } : State).sp.val := by decide

theorem witness_KeySkipsOnTheKeyState : (15 : Key).val = ((start [(0, 15)]).reg 0).toNat ∧
    (0 : Key).val = ((start []).reg 0).toNat := by decide

theorem witness_KeySkipAboveFifteenLatches : 15 < ((start [(0, 16)]).reg 0).toNat ∧ 15 < ((start [(0, 255)]).reg 0).toNat := by
  decide

/-- `AddSetsTheCarry`, `SubtractionsSetNotBorrow` and `ShiftsSetTheBitOut`: a destination other than `VF`. -/
theorem witness_destination : (14 : Reg) ≠ 15 := by decide

theorem witness_BcdStoresThreeDigits : (startMem [] 4093 []).i.toNat + 2 ≤ 4095 := by decide

/-- No byte, one byte and two bytes stored before the failure. -/
theorem witness_BcdPastMemoryLatches : 4095 < (startMem [] 4096 []).i.toNat + 2 ∧
    (4095 < (startMem [] 4095 []).i.toNat + 2 ∧ (startMem [] 4095 []).i.toNat ≤ 4095) ∧
    (4095 < (startMem [] 4094 []).i.toNat + 2 ∧ (startMem [] 4094 []).i.toNat + 1 ≤ 4095) := by decide

/-- All sixteen registers at the last place inside memory, and one at the last byte. -/
theorem witness_BlockStoreStoresTheRegisters : (startMem [] 4080 []).i.toNat + (15 : Reg).val ≤ 4095 ∧
    (startMem [] 4095 []).i.toNat + (0 : Reg).val ≤ 4095 ∧ (0 : Reg) ≤ 0 ∧ (15 : Reg) ≤ 15 := by decide

theorem witness_BlockStorePastMemoryLatches : 4095 < (startMem [] 4096 []).i.toNat + (0 : Reg).val ∧
    4095 < (startMem [] 4081 []).i.toNat + (15 : Reg).val ∧ (startMem [] 4081 []).i.toNat + (14 : Reg).val ≤ 4095 := by decide

theorem witness_BlockLoadLoadsTheRegisters : (startMem [] 4080 []).i.toNat + (15 : Reg).val ≤ 4095 ∧
    (startMem [] 4095 []).i.toNat + (0 : Reg).val ≤ 4095 ∧ (0 : Reg) < 1 := by decide

theorem witness_BlockLoadPastMemoryLatches : 4095 < (startMem [] 4096 []).i.toNat + (0 : Reg).val ∧
    4095 < (startMem [] 4081 []).i.toNat + (15 : Reg).val ∧ (startMem [] 4081 []).i.toNat + (14 : Reg).val ≤ 4095 := by decide

theorem witness_BlockStoreThenLoadRestores : ∃ s t u : State, exec (.storeRegs 1) s = .next t ∧ t.Running ∧ u.mem = t.mem ∧
    u.i = s.i ∧ s.reg 1 = 0xCD ∧ u.reg 1 = 0 :=
  ⟨startMem [(0, 0xAB), (1, 0xCD)] 0x300 [], _, startMem [] 0x300 [(0x300, 0xAB), (0x301, 0xCD)], rfl, rfl, by decide, rfl, by decide,
    by decide⟩

/-- No key, and the first and the last key. -/
theorem witness_KeyWaitPollsTheKeypad : (∀ k, State.reset.key k = false) ∧
    (∃ k, ({ State.reset with keys := 1 } : State).key k = true) ∧
    ∃ k, ({ State.reset with keys := 0x8000 } : State).key k = true :=
  ⟨by decide, ⟨0, by decide⟩, 15, by decide⟩

theorem witness_TimerInstructionsThroughTheTick : (fetching State.reset 0xF307).Running ∧
    (fetching State.reset 0xF307).instr = some (.ldVxDt 3) ∧ (fetching State.reset 0xF315).instr = some (.ldDtVx 3) ∧
    (fetching State.reset 0xF318).instr = some (.ldStVx 3) := by decide

theorem witness_RegistersWrittenOnlyByTheirInstructions : ∃ t, exec (.loadRegs 3) (startMem [] 0x300 []) = .next t ∧
    ¬ writesReg 4 (.loadRegs 3) := ⟨_, rfl, by unfold writesReg; decide⟩

/-- An instruction that is none of those each clause excepts. -/
theorem witness_SpacesWrittenOnlyByTheirInstructions : ∃ t, exec (.jp 0x300) State.reset = .next t ∧
    (∀ x, Instr.jp 0x300 ≠ .ldB x) ∧ (∀ x, Instr.jp 0x300 ≠ .storeRegs x) ∧ (∀ u, Instr.jp 0x300 ≠ .cls u) ∧
    (∀ x y n, Instr.jp 0x300 ≠ .drw x y n) ∧ ∀ nnn, Instr.jp 0x300 ≠ .call nnn :=
  ⟨_, rfl, fun _ => Instr.noConfusion, fun _ => Instr.noConfusion, fun _ => Instr.noConfusion, fun _ _ _ => Instr.noConfusion,
    fun _ => Instr.noConfusion⟩

theorem witness_PcFollowsTheList : (∃ t, State.reset.Running ∧ exec (.skp 0) State.reset = .next t ∧ t.Running) ∧
    ∃ t, exec (.ret 0x0E) State.reset = .next t ∧ ¬ t.Running :=
  ⟨⟨_, rfl, rfl, rfl⟩, _, rfl, by decide⟩

theorem witness_CoreNeverClearsTheOutputFlags : (∃ s t, step s = .next t ∧ s.draw = true ∧ s.sound = true) ∧
    ∃ t, step halted = .next t ∧ halted.fault ≠ none :=
  ⟨⟨fetching { State.reset with draw := true, sound := true } 0x6000, _, rfl, rfl, rfl⟩, _, rfl, by decide⟩

theorem witness_SoundTimerIsNeverRead : ∃ t, step (fetching State.reset 0xF307) = .next t := ⟨_, rfl⟩

end Sys2Proof.Tests
end

section
/-! SUPPORT. The step of a running core that executes an instruction (spec/40_cycle.md R120 to R124), and the tick that
ends it (R125, R126). -/

namespace Sys2Proof.Machine

/-- A running core executes the instruction it fetches and ends the cycle. -/
theorem step_eq_endCycle {s : State} {i : Instr} (hs : s.Running) (hi : s.instr = some i) :
    step s = endCycle (exec i s) := by
  obtain ⟨op, hop, hdec⟩ := Option.bind_eq_some_iff.1 hi
  simp [step, cycle, hs, hop, runOpcode, hdec]

/-- An instruction that raised nothing is followed by the tick. -/
theorem endCycle_of_running {t : State} (ht : t.Running) : endCycle (.next t) = .next t.tick := by
  simp [endCycle, ht]

/-- The tick changes the timers and `SOUND` alone. -/
theorem State.tick_frame (s : State) :
    s.tick = { s with dt := s.tick.dt, st := s.tick.st, sound := s.tick.sound } := by
  rw [State.mk.injEq]
  simp

/-- The tick leaves `SOUND` set exactly when it was set, or the sound timer goes from 1 to 0 (R126). -/
theorem State.tick_sound_iff (s : State) : s.tick.sound = true ↔ s.sound = true ∨ s.st.toNat = 1 := by
  simp [State.tick_sound, BitVec.toNat_eq]

end Sys2Proof.Machine

open Sys2Proof.Machine

/-- Settles O11: the step ends with the tick of the state the instruction leaves, whose fields the tick's own lemmas
give. -/
theorem tickAfterTheInstruction : Obligations.TickAfterTheInstruction := by
  intro s t i hs hi hexec ht
  have hstep : step s = .next t.tick := by
    rw [step_eq_endCycle hs hi, hexec, endCycle_of_running ht]
  exact ⟨t.tick, hstep, t.tick_dt_toNat, t.tick_st_toNat, t.tick_sound_iff, t.tick_frame⟩
end

section
/-! SUPPORT. The conditional skips (spec/42_skip.md R150 to R153): each instruction as a skip on its own comparison, and
once for all of them what a skip on a condition does. -/

namespace Sys2Proof.Machine

/-- A skip changes the program counter alone. -/
theorem State.skipIf_frame (s : State) (c : Bool) : s.skipIf c = { s with pc := (s.skipIf c).pc } := by
  rw [State.mk.injEq]
  simp

/-- An instruction that ends in a skip whose test `c` decides `P` moves `PC` by 4 when `P` holds and by 2 otherwise, and
does nothing else. -/
theorem next_skipIf_spec {r : Result} {s : State} {c : Bool} {P : Prop} [Decidable P]
    (hr : r = .next (s.skipIf c)) (hc : c = true ↔ P) :
    ∃ t, r = .next t ∧ t.pc = (if P then s.pc + 4 else s.pc + 2) ∧ t = { s with pc := t.pc } ∧ SameMemory s t := by
  refine ⟨s.skipIf c, hr, ?_, s.skipIf_frame c, fun a => ?_⟩
  · rw [State.skipIf_pc, apply_ite (s.pc + ·)]
    simp only [hc]
  · rw [State.skipIf_mem]

theorem exec_seImm (s : State) (x : Reg) (nn : Byte) :
    exec (.seImm x nn) s = .next (s.skipIf (s.reg x == nn)) := rfl

theorem exec_sneImm (s : State) (x : Reg) (nn : Byte) :
    exec (.sneImm x nn) s = .next (s.skipIf (s.reg x != nn)) := rfl

theorem exec_seReg (s : State) (x y : Reg) (u : Nibble) :
    exec (.seReg x y u) s = .next (s.skipIf (s.reg x == s.reg y)) := rfl

theorem exec_sneReg (s : State) (x y : Reg) (u : Nibble) :
    exec (.sneReg x y u) s = .next (s.skipIf (s.reg x != s.reg y)) := rfl

end Sys2Proof.Machine

open Sys2Proof.Machine

/-- Settles O34: `3XNN` and `4XNN` are the skips on `V[x] = nn` and on `V[x] ≠ nn`. -/
theorem skipsOnImmediates : Obligations.SkipsOnImmediates := by
  intro s x nn
  exact ⟨next_skipIf_spec (exec_seImm s x nn) beq_iff_eq, next_skipIf_spec (exec_sneImm s x nn) bne_iff_ne⟩

/-- Settles O35: `5XY0` and `9XY0` are the skips on `V[x] = V[y]` and on `V[x] ≠ V[y]`, whatever the low nibble. -/
theorem skipsOnRegisters : Obligations.SkipsOnRegisters := by
  intro s x y u
  exact ⟨next_skipIf_spec (exec_seReg s x y u) beq_iff_eq, next_skipIf_spec (exec_sneReg s x y u) bne_iff_ne⟩
end

section
/-! SUPPORT. The register instructions (spec/43_alu.md): what writing one register and advancing `PC` keeps, said
once for all of them, and the immediate load and add (R160, R161). -/

namespace Sys2Proof.Machine

/-- An instruction that ends by writing `V[x]` keeps every other register, `VF` included, advances `PC` by 2, and keeps
everything else. -/
theorem State.setReg_advance_spec {s t : State} {x : Reg} {b : Byte} (ht : t = (s.setReg x b).advance 2) :
    SameRegsExcept [x] s t ∧ t.pc = s.pc + 2 ∧ t = { s with v := t.v, pc := t.pc } ∧ SameMemory s t := by
  subst ht
  refine ⟨fun r hr => ?_, rfl, rfl, fun _ => rfl⟩
  rw [State.reg_advance, State.reg_setReg_other s b (List.ne_of_not_mem_cons hr)]

/-- An instruction that ends by writing `V[x]` leaves there what it wrote. -/
theorem State.reg_setReg_advance_same (s : State) (x : Reg) (b : Byte) (k : Word) :
    ((s.setReg x b).advance k).reg x = b := by
  rw [State.reg_advance, State.reg_setReg_same]

theorem exec_ldImm (s : State) (x : Reg) (nn : Byte) :
    exec (.ldImm x nn) s = .next ((s.setReg x nn).advance 2) := rfl

theorem exec_addImm (s : State) (x : Reg) (nn : Byte) :
    exec (.addImm x nn) s = .next ((s.setReg x (s.reg x + nn)).advance 2) := rfl

end Sys2Proof.Machine

open Sys2Proof.Machine

/-- Settles O38: both end by writing `V[x]` alone, `6XNN` the immediate and `7XNN` the byte sum, which wraps at 256. -/
theorem immediateLoadAndAdd : Obligations.ImmediateLoadAndAdd := by
  intro s x nn
  refine ⟨⟨_, exec_ldImm s x nn, s.reg_setReg_advance_same x nn 2, State.setReg_advance_spec rfl⟩,
    ⟨_, exec_addImm s x nn, ?_, State.setReg_advance_spec rfl⟩⟩
  rw [State.reg_setReg_advance_same, BitVec.toNat_add]
end

section
/-! SUPPORT. The screen clear (spec/45_display.md R190): the state it leaves. -/

namespace Sys2Proof.Machine

theorem exec_cls (s : State) (u : Byte) :
    exec (.cls u) s = .next ({ s with fb := Framebuffer.blank, draw := true }.advance 2) := rfl

end Sys2Proof.Machine

open Sys2Proof.Machine

/-- Settles O26: the framebuffer it leaves is the blank one, and the other fields are read off its next state. -/
theorem clsBlanksTheScreen : Obligations.ClsBlanksTheScreen := by
  intro s u
  exact ⟨_, exec_cls s u, Framebuffer.cell_blank, rfl, rfl, rfl, fun _ => rfl⟩
end

section
/-! SUPPORT. The decoder by format and group (spec/30_encoding.md R93 to R100), in both directions: what it makes of a
packed opcode, and of what packing an instruction it decodes is. -/

namespace Sys2Proof

/-! ### Decoding a packed opcode -/

theorem decode_packZ (u : Byte) (n : Nibble) : decode (packZ u n) = decodeGroup0 (packZ u n) := by
  simp [decode]

theorem decode_packXY_8 (x : Reg) (y n : Nibble) : decode (packXY 0x8#4 x y n) = decodeGroup8 (packXY 0x8#4 x y n) := by
  simp [decode]

theorem decode_packXI_E (x : Reg) (nn : Byte) : decode (packXI 0xE#4 x nn) = decodeGroupE (packXI 0xE#4 x nn) := by
  simp [decode]

theorem decode_packXI_F (x : Reg) (nn : Byte) : decode (packXI 0xF#4 x nn) = decodeGroupF (packXI 0xF#4 x nn) := by
  simp [decode]

/-- The decoder gives back every instruction but a `DXYN` of more than 15 rows, whose count no field holds. -/
theorem decode_encode {i : Instr} (hi : i.WellFormed) : decode (encode i) = some i := by
  cases i with
  | cls u | ret u => simp [encode, decode_packZ, decodeGroup0]
  | jp nnn | call nnn | ldI nnn | jpV0 nnn => simp [encode, decode]
  | seImm x nn | sneImm x nn | ldImm x nn | addImm x nn | rnd x nn => simp [encode, decode]
  | seReg x y u | sneReg x y u => simp [encode, decode]
  | ldReg x y | orReg x y | andReg x y | xorReg x y | addReg x y | subReg x y | subnReg x y =>
    simp [encode, decode_packXY_8, decodeGroup8]
  | shr x u | shl x u => simp [encode, decode_packXY_8, decodeGroup8]
  | drw x y n =>
    have hn : n < 16 := by simpa [Instr.WellFormed, Instr.wellFormed] using hi
    simp [encode, decode, Nat.mod_eq_of_lt hn]
  | skp x | sknp x => simp [encode, decode_packXI_E, decodeGroupE]
  | ldVxDt x | ldVxK x | ldDtVx x | ldStVx x | addI x | ldF x | ldB x | storeRegs x | loadRegs x =>
    simp [encode, decode_packXI_F, decodeGroupF]

/-! ### What an opcode that decodes is -/

/-- The instruction stands for the opcode: it is well-formed and its encoding is the opcode. -/
def StandsFor (i : Instr) (op : Word) : Prop := i.WellFormed ∧ encode i = op

theorem fieldH_eq {op : Word} {h : Nibble} (e : (fieldH op).toNat = h.toNat) : fieldH op = h := BitVec.eq_of_toNat_eq e

theorem fieldN_eq {op : Word} {n : Nibble} (e : (fieldN op).toNat = n.toNat) : fieldN op = n := BitVec.eq_of_toNat_eq e

/-- An opcode as the packing of its `x` and low byte, when its opcode nibble is known. -/
theorem packXI_eq {op : Word} {h : Nibble} {nn : Byte} (eh : fieldH op = h) (en : fieldNN op = nn) :
    packXI h (fieldX op) nn = op := by
  rw [← eh, ← en, packXI_fields]

/-- An opcode as the packing of its `x` and `y`, when its opcode nibble and low nibble are known. -/
theorem packXY_eq {op : Word} {h n : Nibble} (eh : fieldH op = h) (en : fieldN op = n) :
    packXY h (fieldX op) (fieldYBits op) n = op := by
  rw [← eh, ← en, packXY_fields]

theorem packXY_eq_reg {op : Word} {h n : Nibble} (eh : fieldH op = h) (en : fieldN op = n) :
    packXY h (fieldX op) (fieldOfReg (fieldY op)) n = op := by
  rw [fieldOfReg_fieldY, packXY_eq eh en]

theorem packA_eq {op : Word} {h : Nibble} (eh : fieldH op = h) : packA h (fieldNNN op) = op := by
  rw [← eh, packA_fields]

theorem packZ_eq {op : Word} {n : Nibble} (eh : (fieldH op).toNat = 0) (en : fieldN op = n) :
    packZ (fieldU op) n = op := by
  rw [← en, packZ_fields op eh]

theorem standsFor_of_decodeGroup0 {op : Word} {i : Instr} (hh : (fieldH op).toNat = 0)
    (h : decodeGroup0 op = some i) : StandsFor i op := by
  unfold decodeGroup0 at h
  split at h
  case h_1 hn => cases h; exact ⟨rfl, packZ_eq hh (fieldN_eq hn)⟩
  case h_2 hn => cases h; exact ⟨rfl, packZ_eq hh (fieldN_eq hn)⟩
  case h_3 => cases h

theorem standsFor_of_decodeGroup8 {op : Word} {i : Instr} (hh : fieldH op = 0x8)
    (h : decodeGroup8 op = some i) : StandsFor i op := by
  unfold decodeGroup8 at h
  split at h
  case h_10 => cases h
  case h_7 hn => cases h; exact ⟨rfl, packXY_eq hh (fieldN_eq hn)⟩
  case h_9 hn => cases h; exact ⟨rfl, packXY_eq hh (fieldN_eq hn)⟩
  all_goals
    rename_i hn
    cases h
    exact ⟨rfl, packXY_eq_reg hh (fieldN_eq hn)⟩

theorem standsFor_of_decodeGroupE {op : Word} {i : Instr} (hh : fieldH op = 0xE)
    (h : decodeGroupE op = some i) : StandsFor i op := by
  unfold decodeGroupE at h
  repeat' split at h
  all_goals cases h
  all_goals exact ⟨rfl, packXI_eq hh ‹fieldNN op = _›⟩

theorem standsFor_of_decodeGroupF {op : Word} {i : Instr} (hh : fieldH op = 0xF)
    (h : decodeGroupF op = some i) : StandsFor i op := by
  unfold decodeGroupF at h
  repeat' split at h
  all_goals cases h
  all_goals exact ⟨rfl, packXI_eq hh ‹fieldNN op = _›⟩

/-- The instruction an opcode decodes to stands for it. -/
theorem standsFor_of_decode {op : Word} {i : Instr} (h : decode op = some i) : StandsFor i op := by
  unfold decode at h
  split at h
  case h_1 hh => exact standsFor_of_decodeGroup0 hh h
  case h_9 hh => exact standsFor_of_decodeGroup8 (fieldH_eq hh) h
  case h_15 hh => exact standsFor_of_decodeGroupE (fieldH_eq hh) h
  case h_16 h0 h1 h2 h3 h4 h5 h6 h7 h8 h9 hA hB hC hD hE =>
    simp only [imp_false] at h0 h1 h2 h3 h4 h5 h6 h7 h8 h9 hA hB hC hD hE
    have hF : (fieldH op).toNat = 0xF := by have := (fieldH op).isLt; omega
    exact standsFor_of_decodeGroupF (fieldH_eq hF) h
  case h_2 hh => cases h; exact ⟨rfl, packA_eq (fieldH_eq hh)⟩
  case h_3 hh => cases h; exact ⟨rfl, packA_eq (fieldH_eq hh)⟩
  case h_11 hh => cases h; exact ⟨rfl, packA_eq (fieldH_eq hh)⟩
  case h_12 hh => cases h; exact ⟨rfl, packA_eq (fieldH_eq hh)⟩
  case h_4 hh => cases h; exact ⟨rfl, packXI_eq (fieldH_eq hh) rfl⟩
  case h_5 hh => cases h; exact ⟨rfl, packXI_eq (fieldH_eq hh) rfl⟩
  case h_7 hh => cases h; exact ⟨rfl, packXI_eq (fieldH_eq hh) rfl⟩
  case h_8 hh => cases h; exact ⟨rfl, packXI_eq (fieldH_eq hh) rfl⟩
  case h_13 hh => cases h; exact ⟨rfl, packXI_eq (fieldH_eq hh) rfl⟩
  case h_6 hh => cases h; exact ⟨rfl, packXY_eq_reg (fieldH_eq hh) rfl⟩
  case h_10 hh => cases h; exact ⟨rfl, packXY_eq_reg (fieldH_eq hh) rfl⟩
  case h_14 hh =>
    cases h
    exact ⟨decide_eq_true (fieldN op).isLt, packXY_eq_reg (fieldH_eq hh) (by simp)⟩

/-- The instruction an opcode decodes to encodes to the opcode. -/
theorem encode_of_decode {op : Word} {i : Instr} (h : decode op = some i) : encode i = op := (standsFor_of_decode h).2

end Sys2Proof

open Sys2Proof Sys2Proof.Machine

/-- Settles O1: by format, the fields of the packed opcode are those it was packed from. -/
theorem decodeOfEncode : Obligations.DecodeOfEncode := fun _ hi => decode_encode hi

/-- Settles O2: by group, the opcode is the packing of its own fields. -/
theorem encodeOfDecode : Obligations.EncodeOfDecode := fun _ _ h => standsFor_of_decode h
end

section
/-! SUPPORT. The opcode map against the decoder (spec/30_encoding.md R96, R101): a row's mask and match as an equation
of numbers, and the opcodes that decode to nothing, group by group. -/

namespace Sys2Proof

open Sys2Proof.Machine Sys2Proof.Laws.RowSelects

/-! ### The opcodes that decode to nothing -/

theorem decodeGroup0_eq_none {op : Word} : decodeGroup0 op = none ↔ op.toNat % 16 ∉ [0x0, 0xE] := by
  unfold decodeGroup0
  rw [fieldN_toNat]
  split <;> simp_all

theorem decodeGroup8_eq_none {op : Word} :
    decodeGroup8 op = none ↔ op.toNat % 16 ∈ [0x8, 0x9, 0xA, 0xB, 0xC, 0xD, 0xF] := by
  unfold decodeGroup8
  rw [fieldN_toNat]
  split
  case h_10 =>
    have := Nat.mod_lt op.toNat (show 16 > 0 by decide)
    simp_all
    omega
  all_goals simp_all

theorem fieldNN_eq_iff {op : Word} {nn : Byte} : fieldNN op = nn ↔ op.toNat % 256 = nn.toNat := by
  rw [← BitVec.toNat_inj, fieldNN_toNat]

theorem ite_some_eq_none {α : Type} {c : Prop} [Decidable c] {a : α} {o : Option α} :
    (if c then some a else o) = none ↔ ¬ c ∧ o = none := by
  split <;> simp_all

theorem decodeGroupE_eq_none {op : Word} : decodeGroupE op = none ↔ op.toNat % 256 ∉ [0x9E, 0xA1] := by
  simp [decodeGroupE, ite_some_eq_none, fieldNN_eq_iff]

theorem decodeGroupF_eq_none {op : Word} :
    decodeGroupF op = none ↔ op.toNat % 256 ∉ [0x07, 0x0A, 0x15, 0x18, 0x1E, 0x29, 0x33, 0x55, 0x65] := by
  simp [decodeGroupF, ite_some_eq_none, fieldNN_eq_iff]

/-- An opcode decodes to nothing exactly when the spec lists it as illegal (R101). -/
theorem decode_eq_none_iff {op : Word} : decode op = none ↔ IllegalOpcode op := by
  unfold IllegalOpcode
  rw [← decodeGroup0_eq_none, ← decodeGroup8_eq_none, ← decodeGroupE_eq_none, ← decodeGroupF_eq_none, ← fieldH_toNat]
  unfold decode
  split
  case h_16 =>
    have hF : (fieldH op).toNat = 0xF := by have := (fieldH op).isLt; simp_all; omega
    simp [hF]
  all_goals simp_all

/-! ### Rows of the map -/

theorem rowSelects (i : Instr) : Statement i := by
  cases i with
  | cls u => exact cls u
  | ret u => exact ret u
  | jp nnn => exact jp nnn
  | call nnn => exact call nnn
  | seImm x nn => exact seImm x nn
  | sneImm x nn => exact sneImm x nn
  | seReg x y u => exact seReg x y u
  | ldImm x nn => exact ldImm x nn
  | addImm x nn => exact addImm x nn
  | ldReg x y => exact ldReg x y
  | orReg x y => exact orReg x y
  | andReg x y => exact andReg x y
  | xorReg x y => exact xorReg x y
  | addReg x y => exact addReg x y
  | subReg x y => exact subReg x y
  | shr x u => exact shr x u
  | subnReg x y => exact subnReg x y
  | shl x u => exact shl x u
  | sneReg x y u => exact sneReg x y u
  | ldI nnn => exact ldI nnn
  | jpV0 nnn => exact jpV0 nnn
  | rnd x nn => exact rnd x nn
  | drw x y n => exact drw x y n
  | skp x => exact skp x
  | sknp x => exact sknp x
  | ldVxDt x => exact ldVxDt x
  | ldVxK x => exact ldVxK x
  | ldDtVx x => exact ldDtVx x
  | ldStVx x => exact ldStVx x
  | addI x => exact addI x
  | ldF x => exact ldF x
  | ldB x => exact ldB x
  | storeRegs x => exact storeRegs x
  | loadRegs x => exact loadRegs x

/-- The instruction an opcode decodes to is one whose row the opcode selects. -/
theorem pattern_of_decode {op : Word} {i : Instr} (h : decode op = some i) :
    i.pattern ∈ opcodeMap ∧ i.pattern.selects op = true := by
  obtain ⟨hsel, hmem⟩ := rowSelects i
  exact ⟨hmem, encode_of_decode h ▸ hsel⟩

theorem selects_F000_iff {b op : Word} :
    Pattern.selects ⟨0xF000, b⟩ op = true ↔ op.toNat / 4096 * 4096 = b.toNat := by
  rw [selects_F000, beq_iff_eq, ← BitVec.toNat_inj, packXY_toNat, fieldH_toNat]
  simp

theorem selects_F00F_iff {b op : Word} :
    Pattern.selects ⟨0xF00F, b⟩ op = true ↔ op.toNat / 4096 * 4096 + op.toNat % 16 = b.toNat := by
  rw [selects_F00F, beq_iff_eq, ← BitVec.toNat_inj, packXY_toNat, fieldH_toNat, fieldN_toNat]
  simp

theorem selects_F0FF_iff {b op : Word} :
    Pattern.selects ⟨0xF0FF, b⟩ op = true ↔ op.toNat / 4096 * 4096 + op.toNat % 256 = b.toNat := by
  rw [selects_F0FF, beq_iff_eq, ← BitVec.toNat_inj, packXI_toNat, fieldH_toNat, fieldNN_toNat]
  simp

/-- No row of the map is selected by an illegal opcode. -/
theorem not_selects_of_illegal {op : Word} (h : IllegalOpcode op) : ∀ p ∈ opcodeMap, ¬ p.selects op = true := by
  have hmod : op.toNat % 256 % 16 = op.toNat % 16 := Nat.mod_mod_of_dvd _ (by decide)
  simp only [opcodeMap, List.cons_append, List.nil_append, List.forall_mem_cons, selects_F000_iff, selects_F00F_iff,
    selects_F0FF_iff]
  simp only [BitVec.ofNat_eq_ofNat, BitVec.toNat_ofNat, Nat.reducePow, Nat.reduceMod, List.not_mem_nil, false_imp_iff,
    implies_true, and_true]
  simp only [IllegalOpcode, List.mem_cons, List.not_mem_nil, or_false, not_or] at h
  and_intros <;> omega

/-- Two rows that one opcode selects agree in every bit that both fix. -/
theorem bits_agree_of_selects {p q : Pattern} {op : Word} (hp : p.selects op = true) (hq : q.selects op = true) :
    p.bits &&& (p.mask &&& q.mask) = q.bits &&& (p.mask &&& q.mask) := by
  simp only [Pattern.selects, beq_iff_eq] at hp hq
  rw [← hp, ← hq]
  ext k
  simp only [BitVec.getElem_and]
  grind

/-- Two rows that agree in every bit that both fix are the same row. -/
theorem opcodeMap_rows_differ : ∀ p ∈ opcodeMap, ∀ q ∈ opcodeMap,
    p.bits &&& (p.mask &&& q.mask) = q.bits &&& (p.mask &&& q.mask) → p = q := by
  decide

end Sys2Proof

open Sys2Proof Sys2Proof.Machine

/-- Settles O5: group by group. -/
theorem illegalOpcodesSelectNothing : Obligations.IllegalOpcodesSelectNothing := fun _ => decode_eq_none_iff

/-- Settles O4: an opcode that decodes selects its instruction's row, one that does not is illegal and selects none, and
two different rows differ in a bit that both fix. -/
theorem opcodeMapSelectsTheInstruction : Obligations.OpcodeMapSelectsTheInstruction := by
  refine ⟨fun op => ⟨?_, ?_⟩, fun op i => pattern_of_decode, ?_⟩
  · rintro ⟨i, hi⟩
    exact ⟨i.pattern, pattern_of_decode hi⟩
  · rintro ⟨p, hp, hsel⟩
    refine Option.ne_none_iff_exists'.1 fun hnone => ?_
    exact not_selects_of_illegal (decode_eq_none_iff.1 hnone) p hp hsel
  · intro p hp q hq op hpsel hqsel
    exact opcodeMap_rows_differ p hp q hq (bits_agree_of_selects hpsel hqsel)

/-- Settles O3: the decoder computes each of the ten words. -/
theorem sampleWordsDecode : Obligations.SampleWordsDecode := by
  unfold Obligations.SampleWordsDecode
  decide
end

section
/-! SUPPORT. The step (spec/40_cycle.md R120 to R129): an equation for each of its branches. -/

namespace Sys2Proof.Machine

variable {s t : State} {i : Instr} {op : Word}

theorem step_of_halted (hs : ¬ s.Running) : step s = .next s := by
  rw [step, cycle, if_pos (Option.isSome_iff_ne_none.2 hs)]

theorem step_of_fetch_outside (hs : s.Running) (hpc : 4094 < s.pc.toNat) :
    step s = .next (s.raise (.fetchFault s.pc) none) := by
  simp [step, cycle, hs, fetch_eq_none.2 hpc]

theorem step_of_unrecognized (hs : s.Running) (hop : s.opcode = some op) (hdec : decode op = none) :
    step s = .next (s.raise (.unrecognizedOpcode op) (some op)) := by
  simp [step, cycle, hs, hop, runOpcode, hdec, failWith]

theorem endCycle_of_halted (ht : ¬ t.Running) : endCycle (.next t) = .next t := by
  rw [endCycle, if_pos (Option.isSome_iff_ne_none.2 ht)]

/-- Two bytes decode as the opcode they make up. -/
theorem decodeBytes_pair {hi lo : Byte} (h : decodeBytes [hi, lo] = .ok (i, [])) :
    decode (wordOfBytes hi lo) = some i := by
  simp only [decodeBytes] at h
  split at h
  · rename_i j hj
    cases h
    exact hj
  · cases h

/-- The instruction of a core is what the two bytes at its `PC` decode to. -/
theorem instr_of_decodeBytes (hpc : s.pc.toNat ≤ 4094)
    (h : decodeBytes [s.mem.read s.pc.toNat, s.mem.read (s.pc.toNat + 1)] = .ok (i, [])) : s.instr = some i :=
  Option.bind_eq_some_iff.2 ⟨_, fetch_eq_some.2 ⟨hpc, rfl⟩, decodeBytes_pair h⟩

end Sys2Proof.Machine

open Sys2Proof Sys2Proof.Machine

/-- Settles O6: the instruction the two bytes decode to is the one the step executes. -/
theorem stepRunsTheDecodedInstruction : Obligations.StepRunsTheDecodedInstruction := by
  intro s t i hs hpc _ hbytes hexec
  have hstep : step s = endCycle (.next t) := by
    rw [step_eq_endCycle hs (instr_of_decodeBytes hpc hbytes), hexec]
  exact ⟨fun ht => hstep.trans (endCycle_of_running ht), fun ht => hstep.trans (endCycle_of_halted ht)⟩

/-- Settles O7: the fetch branch of the step. -/
theorem fetchOutsideMemoryLatches : Obligations.FetchOutsideMemoryLatches := fun _ hs hpc => step_of_fetch_outside hs hpc

/-- Settles O9: the halted branch of the step. -/
theorem haltedStepDoesNothing : Obligations.HaltedStepDoesNothing := fun _ hs => step_of_halted hs
end

section
/-! SUPPORT. Control transfer and the keypad (spec/41_flow.md, spec/46_keypad_timers.md): an equation for each case of the
instructions that branch on the stack pointer, on a register that names a key or on the keypad. -/

namespace Sys2Proof.Machine

variable {s : State}

/-! ### Entries of a vector of sixteen -/

theorem getElem_set_same {α : Type} (v : Vector α 16) (k : Fin 16) (b : α) : (v.set k.val b)[k] = b := by
  simp

theorem getElem_set_other {α : Type} (v : Vector α 16) {k j : Fin 16} (b : α) (h : j ≠ k) :
    (v.set k.val b)[j] = v[j] := by
  simp only [Fin.getElem_fin]
  exact Vector.getElem_set_ne _ _ fun e => h (Fin.ext e.symm)

/-! ### Addresses -/

theorem wordOfAddr_toNat (nnn : Addr) : (wordOfAddr nnn).toNat = nnn.toNat := by
  have := nnn.isLt
  simp only [wordOfAddr, BitVec.toNat_setWidth]
  omega

theorem wordOfByte_toNat (b : Byte) : (wordOfByte b).toNat = b.toNat := by
  have := b.isLt
  simp only [wordOfByte, BitVec.toNat_setWidth]
  omega

/-- `NNN + V0` does not wrap (spec/41_flow.md R143). -/
theorem wordOfAddr_add_wordOfByte_toNat (nnn : Addr) (b : Byte) :
    (wordOfAddr nnn + wordOfByte b).toNat = nnn.toNat + b.toNat := by
  have := nnn.isLt
  have := b.isLt
  rw [BitVec.toNat_add, wordOfAddr_toNat, wordOfByte_toNat]
  omega

/-! ### The stack (spec/41_flow.md R140, R142) -/

theorem State.sp_eq_zero_or_succ (s : State) : s.sp.val = 0 ∨ ∃ k : Fin 16, k.val + 1 = s.sp.val := by
  by_cases h : s.sp.val = 0
  · exact .inl h
  · exact .inr ⟨⟨s.sp.val - 1, by omega⟩, Nat.succ_pred_eq_of_ne_zero h⟩

theorem State.sp_eq_sixteen_or_lt (s : State) : s.sp.val = 16 ∨ ∃ k : Fin 16, k.val = s.sp.val := by
  by_cases h : s.sp.val < 16
  · exact .inr ⟨⟨s.sp.val, h⟩, rfl⟩
  · exact .inl (by omega)

theorem exec_ret_underflow (u : Byte) (h : s.sp.val = 0) :
    exec (.ret u) s = .next (s.raise .stackUnderflow (some (encode (.ret u)))) :=
  dif_pos h

theorem exec_ret_pop (u : Byte) {k : Fin 16} (hk : k.val + 1 = s.sp.val) :
    exec (.ret u) s = .next { s with sp := k.castSucc, pc := s.stack[k] + 2 } := by
  have h : s.sp.val - 1 < 16 := by omega
  obtain rfl : k = ⟨s.sp.val - 1, h⟩ := Fin.ext (by simp only; omega)
  exact dif_neg (by omega)

theorem exec_call_overflow (nnn : Addr) (h : s.sp.val = 16) :
    exec (.call nnn) s = .next (s.raise .stackOverflow (some (encode (.call nnn)))) :=
  dif_neg (by omega)

theorem exec_call_push (nnn : Addr) {k : Fin 16} (hk : k.val = s.sp.val) :
    exec (.call nnn) s =
      .next { s with stack := s.stack.set k.val s.pc, sp := k.succ, pc := wordOfAddr nnn } := by
  have h : s.sp.val < 16 := by omega
  obtain rfl : k = ⟨s.sp.val, h⟩ := Fin.ext hk
  exact dif_pos h

/-! ### Jumps (spec/41_flow.md R141, R143) -/

theorem exec_jp (nnn : Addr) (s : State) : exec (.jp nnn) s = .next { s with pc := wordOfAddr nnn } := rfl

theorem exec_jpV0 (nnn : Addr) (s : State) :
    exec (.jpV0 nnn) s = .next { s with pc := wordOfAddr nnn + wordOfByte (s.reg 0) } := rfl

/-- A state that differs from a running one in its `PC` runs, and its fetch fails when that `PC` is above 4094 (R121). -/
theorem step_after_jump {pc : Word} (h : ({ s with pc := pc } : State).Running) (hpc : 4094 < pc.toNat) :
    step { s with pc := pc } = .next { s with pc := pc, fault := some ⟨.fetchFault pc, none⟩ } :=
  step_of_fetch_outside h hpc

/-! ### Keys (spec/46_keypad_timers.md R200 to R202) -/

theorem endKeySkip_of_key {x : Reg} {k : Key} (op : Word) (p : Bool) (hk : k.val = (s.reg x).toNat) :
    endKeySkip x op p s = .next (s.skipIf (s.key k == p)) := by
  rw [endKeySkip, keyIndex_eq_some.2 hk]

theorem endKeySkip_of_above {x : Reg} (op : Word) (p : Bool) (h : 15 < (s.reg x).toNat) :
    endKeySkip x op p s = .next (s.raise (.keyIndexFault (s.reg x)) (some op)) := by
  rw [endKeySkip, keyIndex_eq_none.2 h]
  rfl

theorem exec_skp (x : Reg) (s : State) : exec (.skp x) s = endKeySkip x (encode (.skp x)) true s := rfl

theorem exec_sknp (x : Reg) (s : State) : exec (.sknp x) s = endKeySkip x (encode (.sknp x)) false s := rfl

theorem exec_ldVxK_nil (x : Reg) (h : pressedKeys s.keys = []) : exec (.ldVxK x) s = .next s := by
  simp only [exec, execLdVxK, h]

theorem exec_ldVxK_cons (x : Reg) {k : Key} {more : List Key} (h : pressedKeys s.keys = k :: more) :
    exec (.ldVxK x) s = .next ((s.setReg x (BitVec.ofNat 8 (pickKey s.keys k more).val)).advance 2) := by
  simp only [exec, execLdVxK, h]
  rfl

/-- The key picked is pressed. -/
theorem key_pickKey {k : Key} {more : List Key} (h : pressedKeys s.keys = k :: more) :
    s.key (pickKey s.keys k more) = true :=
  mem_pressedKeys.1 (h ▸ pickKey_mem s.keys k more)

/-- No key is pressed exactly when the list of pressed keys is empty. -/
theorem pressedKeys_eq_nil_iff : pressedKeys s.keys = [] ↔ ∀ k, s.key k = false := by
  simp [List.eq_nil_iff_forall_not_mem, mem_pressedKeys, State.key]

end Sys2Proof.Machine

open Sys2Proof Sys2Proof.Machine

/-- Settles O29: the pop case of the return. -/
theorem retResumesAfterTheCall : Obligations.RetResumesAfterTheCall :=
  fun _ u _ hk => ⟨_, exec_ret_pop u hk, rfl, rfl, rfl, fun _ => rfl⟩

/-- Settles O30: the two cases in which the stack has no entry to pop, or none left to push to. -/
theorem stackFailuresLatch : Obligations.StackFailuresLatch :=
  fun _ u nnn => ⟨exec_ret_underflow u, exec_call_overflow nnn⟩

/-- Settles O31: the targets are sums that do not wrap at 16 bits. -/
theorem jumpsSetThePc : Obligations.JumpsSetThePc := by
  intro s nnn
  exact ⟨⟨_, exec_jp nnn s, wordOfAddr_toNat nnn, rfl, fun _ => rfl, step_after_jump⟩,
    ⟨_, exec_jpV0 nnn s, wordOfAddr_add_wordOfByte_toNat nnn (s.reg 0), rfl, fun _ => rfl, step_after_jump⟩⟩

/-- Settles O32: the push sets the entry numbered by the stack pointer alone. -/
theorem callPushesItsOwnAddress : Obligations.CallPushesItsOwnAddress := by
  intro s nnn k hk
  exact ⟨_, exec_call_push nnn hk, getElem_set_same s.stack k s.pc, fun j hj => getElem_set_other s.stack s.pc hj, rfl,
    wordOfAddr_toNat nnn, rfl, fun _ => rfl⟩

/-- Settles O33: the return pops the entry the call pushed. -/
theorem callThenRetResumes : Obligations.CallThenRetResumes := by
  intro s nnn u hsp
  obtain ⟨k, hk⟩ : ∃ k : Fin 16, k.val = s.sp.val := ⟨⟨s.sp.val, hsp⟩, rfl⟩
  refine ⟨_, _, exec_call_push nnn hk, exec_ret_pop u (k := k) rfl, fun j hj => ?_, fun j hj => ?_, ?_⟩
  · exact getElem_set_other s.stack s.pc fun e => hj (e ▸ hk)
  · obtain rfl : j = k := Fin.ext (hj.trans hk.symm)
    exact getElem_set_same s.stack j s.pc
  · have hsp' : k.castSucc = s.sp := Fin.ext hk
    simp [hsp']

/-- Settles O36: the two skips on the key that `V[x]` names. -/
theorem keySkipsOnTheKeyState : Obligations.KeySkipsOnTheKeyState := by
  intro s x k hk
  exact ⟨next_skipIf_spec ((exec_skp x s).trans (endKeySkip_of_key _ _ hk)) beq_iff_eq,
    next_skipIf_spec ((exec_sknp x s).trans (endKeySkip_of_key _ _ hk)) beq_iff_eq⟩

/-- Settles O37: a value above 15 names no key. -/
theorem keySkipAboveFifteenLatches : Obligations.KeySkipAboveFifteenLatches :=
  fun _ _ hx => ⟨endKeySkip_of_above _ _ hx, endKeySkip_of_above _ _ hx⟩

/-- Settles O52: by whether the list of pressed keys is empty; the key stored is one of the list. -/
theorem keyWaitPollsTheKeypad : Obligations.KeyWaitPollsTheKeypad := by
  intro s x
  refine ⟨fun h => exec_ldVxK_nil x (pressedKeys_eq_nil_iff.2 h), fun ⟨k₀, hk₀⟩ => ?_⟩
  cases h : pressedKeys s.keys with
  | nil => simp [pressedKeys_eq_nil_iff.1 h k₀] at hk₀
  | cons k more =>
    refine ⟨_, pickKey s.keys k more, exec_ldVxK_cons x h, key_pickKey h, ?_, State.setReg_advance_spec rfl⟩
    rw [State.reg_setReg_advance_same, BitVec.toNat_ofNat]
    omega
end

section
/-! SUPPORT. What an instruction can do, said once for all 34 (spec/10_state.md R24; spec/60_exceptions.md R210, R214):
it raises a failure of the table over a state that holds its partial effects, or it completes with the effects of its
kind. The statements about all instructions and all steps are case analyses of this. -/

namespace Sys2Proof.Machine

/-! ### The kinds of ends -/

/-- The instruction raises the failure over the state (the table of spec/60_exceptions.md R210): nothing is written but,
before a MemoryFault, what the accesses inside memory wrote (R214). -/
inductive Raises (s : State) : Instr → Failure → State → Prop
  | underflow (u : Byte) (h : s.sp = 0) : Raises s (.ret u) .stackUnderflow s
  | overflow (nnn : Addr) (h : s.sp = 16) : Raises s (.call nnn) .stackOverflow s
  | keySkp (x : Reg) (h : 15 < (s.reg x).toNat) : Raises s (.skp x) (.keyIndexFault (s.reg x)) s
  | keySknp (x : Reg) (h : 15 < (s.reg x).toNat) : Raises s (.sknp x) (.keyIndexFault (s.reg x)) s
  | drw (x y : Reg) (n : Nat) (fb : Framebuffer) :
      Raises s (.drw x y n) (.memoryFault (max s.i.toNat 4096)) { s with fb := fb }
  | ldB (x : Reg) (m : Memory) (hm : s.mem.wf = true → m.wf = true) :
      Raises s (.ldB x) (.memoryFault (max s.i.toNat 4096)) { s with mem := m }
  | storeRegs (x : Reg) (m : Memory) (hm : s.mem.wf = true → m.wf = true) :
      Raises s (.storeRegs x) (.memoryFault (max s.i.toNat 4096)) { s with mem := m }
  | loadRegs (x : Reg) (v : Vector Byte 16) (hv : ∀ r, ¬ writesReg r (.loadRegs x) → v[r] = s.v[r]) :
      Raises s (.loadRegs x) (.memoryFault (max s.i.toNat 4096)) { s with v := v }

/-- The instruction may end in the state: it raises and latches its opcode, or it completes with `PC` as the list of
spec/10_state.md R24 says and the effects of its kind. -/
inductive Ends (s : State) : Instr → State → Prop
  | raised {i : Instr} {f : Failure} {part : State} (h : Raises s i f part) : Ends s i (part.raise f (some (encode i)))
  | moved {i : Instr} {pc : Word} (hpc : nextPc s pc i) : Ends s i { s with pc := pc }
  | computed {i : Instr} {v : Vector Byte 16} {idx : Word} {dt st : Byte} {draws : Nat}
      (hv : ∀ r, ¬ writesReg r i → v[r] = s.v[r]) (hpc : nextPc s (s.pc + 2) i) :
      Ends s i { s with v := v, i := idx, dt := dt, st := st, draws := draws, pc := s.pc + 2 }
  | cleared (u : Byte) : Ends s (.cls u) { s with fb := Framebuffer.blank, draw := true, pc := s.pc + 2 }
  | drawn (x y : Reg) (n : Nat) {fb : Framebuffer} {v : Vector Byte 16}
      (hv : ∀ r, ¬ writesReg r (.drw x y n) → v[r] = s.v[r]) :
      Ends s (.drw x y n) { s with fb := fb, v := v, draw := true, pc := s.pc + 2 }
  | digits (x : Reg) {m : Memory} (hm : s.mem.wf = true → m.wf = true) :
      Ends s (.ldB x) { s with mem := m, pc := s.pc + 2 }
  | stored (x : Reg) {m : Memory} {idx : Word} (hm : s.mem.wf = true → m.wf = true) :
      Ends s (.storeRegs x) { s with mem := m, i := idx, pc := s.pc + 2 }
  | returned (u : Byte) (k : Fin 16) (hk : k.val + 1 = s.sp.val) :
      Ends s (.ret u) { s with sp := k.castSucc, pc := s.stack[k] + 2 }
  | called (nnn : Addr) (k : Fin 16) (hk : k.val = s.sp.val) :
      Ends s (.call nnn) { s with stack := s.stack.set k.val s.pc, sp := k.succ, pc := wordOfAddr nnn }

/-! ### The shared ends are of these kinds -/

variable {s t : State} {i : Instr}

/-- A register instruction of destination `x`. -/
theorem ends_of_endReg {x : Reg} {b : Byte} (hx : ∀ r, ¬ writesReg r i → r ≠ x) (hpc : nextPc s (s.pc + 2) i)
    (h : endReg x b s = .next t) : Ends s i t := by
  rw [endReg_next h]
  exact .computed (fun r hr => getElem_set_other s.v b (hx r hr)) hpc

/-- A flag writer of destination `x`. -/
theorem ends_of_endFlagReg {c : Bool} {x : Reg} {b : Byte} (hx : ∀ r, ¬ writesReg r i → ¬ (r = x ∨ r = 15))
    (hpc : nextPc s (s.pc + 2) i) (h : endFlagReg c x b s = .next t) : Ends s i t := by
  rw [endFlagReg_next h]
  refine .computed (fun r hr => ?_) hpc
  obtain ⟨hrx, hr15⟩ := not_or.1 (hx r hr)
  exact (getElem_set_other _ b hrx).trans (getElem_set_other s.v _ hr15)

/-- The target of a skip whose test decides `P`. -/
theorem State.skipIf_pc_eq (s : State) {c : Bool} {P : Prop} [Decidable P] (hc : c = true ↔ P) :
    (s.skipIf c).pc = if P then s.pc + 4 else s.pc + 2 := by
  rw [State.skipIf_pc, apply_ite (s.pc + ·)]
  simp only [hc]

theorem ends_of_skipIf {c : Bool} (hpc : nextPc s (s.skipIf c).pc i) : Ends s i (s.skipIf c) := by
  rw [s.skipIf_frame c]
  exact .moved hpc

/-- The address a failing access latches is the first one outside memory. -/
theorem firstBad_eq_some {a n b : Nat} (h : firstBad a n = some b) : b = max a 4096 := by
  unfold firstBad at h
  split at h
  · cases h
  · exact (Option.some.inj h).symm

/-- A key skip whose register names no key. -/
theorem ends_of_endKeySkip {x : Reg} {p : Bool} (hpc : ∀ k : Key, k.val = (s.reg x).toNat →
      nextPc s (s.skipIf (s.key k == p)).pc i)
    (hr : 15 < (s.reg x).toNat → Raises s i (.keyIndexFault (s.reg x)) s)
    (h : endKeySkip x (encode i) p s = .next t) : Ends s i t := by
  obtain ⟨k, hk, rfl⟩ | ⟨hx, rfl⟩ := endKeySkip_next h
  · exact ends_of_skipIf (hpc k hk)
  · exact .raised (hr hx)

/-! ### Every instruction -/

theorem ends_of_exec_ret {u : Byte} (h : exec (.ret u) s = .next t) : Ends s (.ret u) t := by
  obtain h0 | ⟨k, hk⟩ := s.sp_eq_zero_or_succ
  · rw [exec_ret_underflow u h0] at h
    cases h
    exact .raised (.underflow u (Fin.ext h0))
  · rw [exec_ret_pop u hk] at h
    cases h
    exact .returned u k hk

theorem ends_of_exec_call {nnn : Addr} (h : exec (.call nnn) s = .next t) : Ends s (.call nnn) t := by
  obtain h16 | ⟨k, hk⟩ := s.sp_eq_sixteen_or_lt
  · rw [exec_call_overflow nnn h16] at h
    cases h
    exact .raised (.overflow nnn (Fin.ext h16))
  · rw [exec_call_push nnn hk] at h
    cases h
    exact .called nnn k hk

theorem ends_of_execDrw {x y : Reg} {n : Nat} (h : execDrw x y n s = .next t) : Ends s (.drw x y n) t := by
  unfold execDrw at h
  obtain ⟨-, rfl⟩ | ⟨a, ha, rfl⟩ := endAccesses_next h
  · exact .drawn x y n fun r hr => getElem_set_other s.v _ hr
  · rw [readRange_bad] at ha
    rw [firstBad_eq_some ha]
    exact .raised (.drw x y n _)

theorem ends_of_execLdB {x : Reg} (h : execLdB x s = .next t) : Ends s (.ldB x) t := by
  unfold execLdB at h
  obtain ⟨-, rfl⟩ | ⟨a, ha, rfl⟩ := endAccesses_next h
  · exact .digits x fun hm => writeRange_wf hm _ _
  · rw [writeRange_bad] at ha
    rw [firstBad_eq_some ha]
    exact .raised (.ldB x _ fun hm => writeRange_wf hm _ _)

theorem ends_of_execStoreRegs {x : Reg} (h : execStoreRegs x s = .next t) : Ends s (.storeRegs x) t := by
  unfold execStoreRegs at h
  obtain ⟨-, rfl⟩ | ⟨a, ha, rfl⟩ := endAccesses_next h
  · exact .stored x fun hm => writeRange_wf hm _ _
  · rw [writeRange_bad] at ha
    rw [firstBad_eq_some ha]
    exact .raised (.storeRegs x _ fun hm => writeRange_wf hm _ _)

/-- A block load of at most `x + 1` bytes leaves the registers above `x`. -/
theorem loadFrom_readRange_above (m : Memory) (a : Nat) (v : Vector Byte 16) {x r : Reg} (hr : ¬ r ≤ x) :
    (loadFrom 0 (readRange m a (x.val + 1)).1 v)[r] = v[r] := by
  have hr : x.val < r.val := not_le.1 hr
  rw [loadFrom_get, dif_neg]
  rw [readRange_bytes, List.length_map, List.length_range, goodCount]
  omega

theorem ends_of_execLoadRegs {x : Reg} (h : execLoadRegs x s = .next t) : Ends s (.loadRegs x) t := by
  unfold execLoadRegs at h
  obtain ⟨-, rfl⟩ | ⟨a, ha, rfl⟩ := endAccesses_next h
  · exact .computed (fun r hr => loadFrom_readRange_above _ _ _ hr) rfl
  · rw [readRange_bad] at ha
    rw [firstBad_eq_some ha]
    exact .raised (.loadRegs x _ fun r hr => loadFrom_readRange_above _ _ _ hr)

theorem ends_of_execLdVxK {x : Reg} (h : execLdVxK x s = .next t) : Ends s (.ldVxK x) t := by
  obtain ⟨hk, rfl⟩ | ⟨k, hk, rfl⟩ := execLdVxK_next h
  · exact .moved (pc := t.pc) (if_pos hk).symm
  · have hne : s.keys ≠ 0 := by
      intro h0
      simp [State.key, h0] at hk
    exact .computed (fun r hr => getElem_set_other s.v _ hr) (if_neg hne).symm

/-- A key skip's test is the bit of the keypad that the register's value numbers. -/
theorem key_beq_iff {k : Key} {n : Nat} (hk : k.val = n) (p : Bool) : (s.key k == p) = true ↔ s.keys.getLsbD n = p := by
  rw [beq_iff_eq, State.key, hk]

theorem ends_of_exec (h : exec i s = .next t) : Ends s i t := by
  cases i with
  | cls u => cases h; exact .cleared u
  | ret u => exact ends_of_exec_ret h
  | jp nnn => cases h; exact .moved (wordOfAddr_toNat nnn)
  | call nnn => exact ends_of_exec_call h
  | seImm x nn => cases h; exact ends_of_skipIf (s.skipIf_pc_eq beq_iff_eq)
  | sneImm x nn => cases h; exact ends_of_skipIf (s.skipIf_pc_eq bne_iff_ne)
  | seReg x y u => cases h; exact ends_of_skipIf (s.skipIf_pc_eq beq_iff_eq)
  | sneReg x y u => cases h; exact ends_of_skipIf (s.skipIf_pc_eq bne_iff_ne)
  | ldImm x nn => exact ends_of_endReg (fun _ hr => hr) rfl h
  | addImm x nn => exact ends_of_endReg (fun _ hr => hr) rfl h
  | ldReg x y => exact ends_of_endReg (fun _ hr => hr) rfl h
  | orReg x y => exact ends_of_endReg (fun _ hr => hr) rfl h
  | andReg x y => exact ends_of_endReg (fun _ hr => hr) rfl h
  | xorReg x y => exact ends_of_endReg (fun _ hr => hr) rfl h
  | ldVxDt x => exact ends_of_endReg (fun _ hr => hr) rfl h
  | rnd x nn => cases h; exact .computed (fun r hr => getElem_set_other s.v _ hr) rfl
  | addReg x y => exact ends_of_endFlagReg (fun _ hr => hr) rfl h
  | subReg x y => exact ends_of_endFlagReg (fun _ hr => hr) rfl h
  | shr x u => exact ends_of_endFlagReg (fun _ hr => hr) rfl h
  | subnReg x y => exact ends_of_endFlagReg (fun _ hr => hr) rfl h
  | shl x u => exact ends_of_endFlagReg (fun _ hr => hr) rfl h
  | addI x => cases h; exact .computed (fun r hr => getElem_set_other s.v _ hr) rfl
  | ldI nnn => cases h; exact .computed (fun _ _ => rfl) rfl
  | ldF x => cases h; exact .computed (fun _ _ => rfl) rfl
  | ldDtVx x => cases h; exact .computed (fun _ _ => rfl) rfl
  | ldStVx x => cases h; exact .computed (fun _ _ => rfl) rfl
  | jpV0 nnn => cases h; exact .moved (wordOfAddr_add_wordOfByte_toNat nnn _)
  | drw x y n => exact ends_of_execDrw h
  | skp x =>
    exact ends_of_endKeySkip (fun k hk => s.skipIf_pc_eq (key_beq_iff hk true)) (.keySkp x) h
  | sknp x =>
    exact ends_of_endKeySkip (fun k hk => s.skipIf_pc_eq (key_beq_iff hk false)) (.keySknp x) h
  | ldVxK x => exact ends_of_execLdVxK h
  | ldB x => exact ends_of_execLdB h
  | storeRegs x => exact ends_of_execStoreRegs h
  | loadRegs x => exact ends_of_execLoadRegs h

end Sys2Proof.Machine
end

section
/-! SUPPORT. Every step of every state (spec/40_cycle.md R120 to R129; spec/60_exceptions.md R210 to R216): that it answers
a next state, what it has done when it ends with a failure, and the invariants it keeps. -/

namespace Sys2Proof.Machine

variable {s t part : State} {i : Instr} {f : Failure} {op : Word}

/-! ### Totality -/

theorem endAccesses_total (bad : Option Nat) (op : Word) (part done : State) :
    ∃ t, endAccesses bad op part done = .next t := by
  cases bad <;> exact ⟨_, rfl⟩

theorem endKeySkip_total (x : Reg) (op : Word) (p : Bool) (s : State) : ∃ t, endKeySkip x op p s = .next t := by
  by_cases h : 15 < (s.reg x).toNat
  · exact ⟨_, endKeySkip_of_above op p h⟩
  · exact ⟨_, endKeySkip_of_key (k := ⟨(s.reg x).toNat, by omega⟩) op p rfl⟩

/-- Every instruction answers a next state. -/
theorem exec_total (i : Instr) (s : State) : ∃ t, exec i s = .next t := by
  cases i with
  | ret u =>
    obtain h | ⟨k, hk⟩ := s.sp_eq_zero_or_succ
    · exact ⟨_, exec_ret_underflow u h⟩
    · exact ⟨_, exec_ret_pop u hk⟩
  | call nnn =>
    obtain h | ⟨k, hk⟩ := s.sp_eq_sixteen_or_lt
    · exact ⟨_, exec_call_overflow nnn h⟩
    · exact ⟨_, exec_call_push nnn hk⟩
  | ldVxK x =>
    cases hk : pressedKeys s.keys with
    | nil => exact ⟨_, exec_ldVxK_nil x hk⟩
    | cons k more => exact ⟨_, exec_ldVxK_cons x hk⟩
  | skp x | sknp x => exact endKeySkip_total _ _ _ _
  | drw x y n | ldB x | storeRegs x | loadRegs x => exact endAccesses_total _ _ _ _
  | _ => exact ⟨_, rfl⟩

theorem endCycle_total (t : State) : ∃ u, endCycle (.next t) = .next u := by
  by_cases ht : t.Running
  · exact ⟨_, endCycle_of_running ht⟩
  · exact ⟨_, endCycle_of_halted ht⟩

/-- Every step answers a next state. -/
theorem step_total (s : State) : ∃ t, step s = .next t := by
  by_cases hs : s.Running
  · by_cases hpc : s.pc.toNat ≤ 4094
    · have hop : s.opcode = some _ := fetch_eq_some.2 ⟨hpc, rfl⟩
      cases hdec : decode (wordOfBytes (s.mem.read s.pc.toNat) (s.mem.read (s.pc.toNat + 1))) with
      | none => exact ⟨_, step_of_unrecognized hs hop hdec⟩
      | some i =>
        obtain ⟨t, ht⟩ := exec_total i s
        rw [step_eq_endCycle hs (Option.bind_eq_some_iff.2 ⟨_, hop, hdec⟩), ht]
        exact endCycle_total t
    · exact ⟨_, step_of_fetch_outside hs (by omega)⟩
  · exact ⟨s, step_of_halted hs⟩

/-! ### What a failure leaves (spec/60_exceptions.md R214) -/

/-- Before it raises, an instruction may have written memory, registers and the framebuffer only. -/
theorem Raises.frame (h : Raises s i f part) : part = { s with mem := part.mem, v := part.v, fb := part.fb } := by
  cases h <;> rfl

/-- Before any failure but a MemoryFault it has written nothing. -/
theorem Raises.eq_of_ne_memoryFault (h : Raises s i f part) (hf : ∀ a, f ≠ .memoryFault a) : part = s := by
  cases h with
  | underflow | overflow | keySkp | keySknp => rfl
  | drw | ldB | storeRegs | loadRegs => exact absurd rfl (hf _)

/-- An instruction raises no UnrecognizedOpcode. -/
theorem Raises.ne_unrecognizedOpcode (h : Raises s i f part) (op' : Word) : f ≠ .unrecognizedOpcode op' := by
  cases h <;> exact Failure.noConfusion

/-- What an instruction raises is in the table of R210. -/
theorem Raises.consistent (h : Raises s i f part) (hop : decode op = some i) (l : Option Latch) :
    Failure.Consistent { part with fault := l } f (some op) := by
  cases h with
  | underflow u h => exact ⟨h, op, u, rfl, hop⟩
  | overflow nnn h => exact ⟨h, op, nnn, rfl, hop⟩
  | keySkp x h => exact ⟨h, op, x, rfl, rfl, .inl hop⟩
  | keySknp x h => exact ⟨h, op, x, rfl, rfl, .inr hop⟩
  | drw x y n fb => exact ⟨rfl, op, rfl, .inl ⟨x, y, n, hop⟩⟩
  | ldB x m hm => exact ⟨rfl, op, rfl, .inr (.inl ⟨x, hop⟩)⟩
  | storeRegs x m hm => exact ⟨rfl, op, rfl, .inr (.inr (.inl ⟨x, hop⟩))⟩
  | loadRegs x v hv => exact ⟨rfl, op, rfl, .inr (.inr (.inr ⟨x, hop⟩))⟩

/-- An instruction completes, with the latch as it was and `PC` as the list of spec/10_state.md R24 says, or raises. -/
theorem Ends.completes_or_raises (h : Ends s i t) :
    (t.fault = s.fault ∧ nextPc s t.pc i) ∨ ∃ f part, Raises s i f part ∧ t = part.raise f (some (encode i)) := by
  cases h with
  | raised h => exact .inr ⟨_, _, h, rfl⟩
  | moved hpc => exact .inl ⟨rfl, hpc⟩
  | computed hv hpc => exact .inl ⟨rfl, hpc⟩
  | cleared | drawn | digits | stored => exact .inl ⟨rfl, rfl⟩
  | returned u k hk => exact .inl ⟨rfl, k, hk, rfl⟩
  | called nnn k hk => exact .inl ⟨rfl, wordOfAddr_toNat nnn⟩

/-- An instruction that halts a running core has raised. -/
theorem raises_of_exec (hs : s.Running) (h : exec i s = .next t) (ht : ¬ t.Running) :
    ∃ f part, Raises s i f part ∧ t = part.raise f (some (encode i)) :=
  (ends_of_exec h).completes_or_raises.resolve_left fun e => ht (e.1.trans hs)

/-- A step that halts a running core: a fetch outside memory, an opcode that decodes to nothing, or an instruction that
raised, its opcode latched. -/
theorem step_fails (hs : s.Running) (h : step s = .next t) (ht : ¬ t.Running) :
    (4094 < s.pc.toNat ∧ t = s.raise (.fetchFault s.pc) none) ∨
    (∃ op, s.opcode = some op ∧ decode op = none ∧ t = s.raise (.unrecognizedOpcode op) (some op)) ∨
    ∃ op i f part, s.opcode = some op ∧ decode op = some i ∧ Raises s i f part ∧ t = part.raise f (some op) := by
  obtain ⟨hf, -⟩ | ⟨-, hpc, rfl⟩ | ⟨op, -, hop, hdec, rfl⟩ | ⟨op, i, u, -, hop, hdec, hexec, hu⟩ := step_cases h
  · exact absurd hs hf
  · exact .inl ⟨hpc, rfl⟩
  · exact .inr (.inl ⟨op, hop, hdec, rfl⟩)
  · obtain ⟨hu, rfl⟩ | ⟨hu, rfl⟩ := hu
    · exact absurd (u.tick_fault.trans hu) ht
    · obtain ⟨f, part, hr, rfl⟩ := raises_of_exec hs hexec hu
      rw [encode_of_decode hdec]
      exact .inr (.inr ⟨op, i, f, part, hop, hdec, hr, rfl⟩)

theorem not_running_of_fault {l : Latch} (h : t.fault = some l) : ¬ t.Running := by simp [h]

/-- The latch a step sets holds a failure of the table. -/
theorem latchConsistent_of_step_fails (hs : s.Running) (h : step s = .next t) (ht : ¬ t.Running) :
    t.LatchConsistent := by
  obtain ⟨hpc, rfl⟩ | ⟨op, hop, hdec, rfl⟩ | ⟨op, i, f, part, hop, hdec, hr, rfl⟩ := step_fails hs h ht
  · rintro _ ⟨⟩
    exact ⟨rfl, rfl, hpc⟩
  · rintro _ ⟨⟩
    exact ⟨rfl, hdec⟩
  · rintro _ ⟨⟩
    exact hr.consistent hdec _

theorem latchConsistent_of_running (hs : s.Running) : s.LatchConsistent := by
  intro l hl
  rw [hs] at hl
  cases hl

/-! ### The bounds of the state (spec/10_state.md R42) -/

/-- Only memory, `PC`, the stack and its pointer matter for the bounds. -/
theorem State.Inv.congr (h : s.Inv) (hm : t.mem = s.mem) (hpc : t.pc = s.pc) (hst : t.stack = s.stack)
    (hsp : t.sp = s.sp) : t.Inv := by
  obtain ⟨hmem, hpcb, hstack⟩ := h
  exact ⟨hm ▸ hmem, hpc ▸ hpcb, by rw [hst, hsp]; exact hstack⟩

/-- Every `PC` of the list of R24 is within its bound. -/
theorem nextPc_le (hs : s.Inv) (hpc : s.pc.toNat ≤ 4094) {pc : Word} (h : nextPc s pc i) : pc.toNat ≤ 0x10FE := by
  have hadd : ∀ k : Word, k.toNat ≤ 4 → (s.pc + k).toNat ≤ 0x10FE := by
    intro k hk
    rw [BitVec.toNat_add]
    omega
  have h2 := hadd 2 (by decide)
  have h4 := hadd 4 (by decide)
  cases i with
  | jp nnn | call nnn => have := nnn.isLt; exact h.trans_le (by omega)
  | jpV0 nnn => have := nnn.isLt; have := (s.reg 0).isLt; exact h.trans_le (by omega)
  | ret u =>
    obtain ⟨k, hk, rfl⟩ := h
    have := hs.stackBound k (by omega)
    rw [BitVec.toNat_add, show (2 : Word).toNat = 2 from rfl]
    omega
  | seImm | sneImm | seReg | sneReg | skp | sknp => rw [show pc = _ from h]; split <;> assumption
  | ldVxK x => rw [show pc = _ from h]; split <;> [exact hpc.trans (by decide); exact h2]
  | _ => exact (congrArg BitVec.toNat h).trans_le h2

/-- An instruction keeps the canonical form of memory. -/
theorem Ends.mem_wf (h : Ends s i t) (hs : s.mem.wf = true) : t.mem.wf = true := by
  cases h with
  | raised h =>
    cases h with
    | ldB x m hm | storeRegs x m hm => exact hm hs
    | _ => exact hs
  | digits x hm | stored x hm => exact hm hs
  | _ => exact hs

/-- An instruction pushes only its own address, and only entries that were live stay live. -/
theorem Ends.stack_bound (h : Ends s i t) (hs : s.Inv) (hpc : s.pc.toNat ≤ 4094) (k : Fin 16) (hk : k.val < t.sp.val) :
    t.stack[k].toNat ≤ 0x0FFE := by
  cases h with
  | raised h => rw [h.frame] at hk ⊢; exact hs.stackBound k hk
  | returned u j hj => exact hs.stackBound k (by simp at hk; omega)
  | called nnn j hj =>
    by_cases e : k = j
    · subst e
      rw [getElem_set_same]
      exact hpc
    · rw [getElem_set_other _ _ e]
      refine hs.stackBound k ?_
      have hne : k.val ≠ j.val := Fin.val_ne_of_ne e
      have hlt : k.val < j.val + 1 := hk
      omega
  | _ => exact hs.stackBound k hk

/-- An instruction fetched inside memory keeps the bounds. -/
theorem Ends.inv (h : Ends s i t) (hs : s.Inv) (hpc : s.pc.toNat ≤ 4094) : t.Inv := by
  refine ⟨h.mem_wf hs.memWf, ?_, h.stack_bound hs hpc⟩
  obtain ⟨-, hnext⟩ | ⟨f, part, hr, rfl⟩ := h.completes_or_raises
  · exact nextPc_le hs hpc hnext
  · rw [State.raise_pc, hr.frame]
    exact hs.pcBound

theorem State.Inv.raise (h : s.Inv) (f : Failure) (op : Option Word) : (s.raise f op).Inv := h.congr rfl rfl rfl rfl

theorem State.Inv.tick (h : s.Inv) : s.tick.Inv := h.congr s.tick_mem s.tick_pc s.tick_stack s.tick_sp

/-- Every step keeps the bounds. -/
theorem inv_of_step (hs : s.Inv) (h : step s = .next t) : t.Inv := by
  obtain ⟨-, rfl⟩ | ⟨-, -, rfl⟩ | ⟨op, -, -, -, rfl⟩ | ⟨op, i, u, -, hop, -, hexec, hu⟩ := step_cases h
  · exact hs
  · exact hs.raise _ _
  · exact hs.raise _ _
  · have hinv : u.Inv := (ends_of_exec hexec).inv hs (fetch_eq_some.1 hop).1
    obtain ⟨-, rfl⟩ | ⟨-, rfl⟩ := hu
    · exact hinv.tick
    · exact hinv

/-- Every step keeps the latch consistent: a running core's step sets it to a failure of the table, a halted core's step
changes nothing. -/
theorem latchConsistent_of_step (hs : s.LatchConsistent) (h : step s = .next t) : t.LatchConsistent := by
  by_cases ht : t.Running
  · exact latchConsistent_of_running ht
  by_cases hr : s.Running
  · exact latchConsistent_of_step_fails hr h ht
  · rw [step_of_halted hr] at h
    cases h
    exact hs

/-! ### The host's moves and reset -/

theorem reset_inv : State.reset.Inv := ⟨Memory.reset_wf, by decide, fun _ hk => absurd hk (Nat.not_lt_zero _)⟩

theorem reset_latchConsistent : State.reset.LatchConsistent := latchConsistent_of_running rfl

theorem State.Inv.hostMove (h : s.Inv) (m : HostMove) : (s.hostMove m).Inv := by
  cases m with
  | reset => exact reset_inv.congr rfl rfl rfl rfl
  | memWrite a b => exact ⟨Memory.write_wf h.memWf a.isLt b, h.pcBound, h.stackBound⟩
  | keyWrite k p => exact h.congr rfl rfl rfl rfl
  | drawAck => exact h.congr rfl rfl rfl rfl
  | soundAck => exact h.congr rfl rfl rfl rfl

/-- The table of failures speaks of `PC`, `I`, the stack pointer and the registers alone. -/
theorem Failure.Consistent.congr {o : Option Word} (h : Failure.Consistent s f o) (hpc : t.pc = s.pc) (hi : t.i = s.i)
    (hsp : t.sp = s.sp) (hv : t.v = s.v) : Failure.Consistent t f o := by
  cases f with
  | graphicsFault fb => exact h
  | _ => simpa [Failure.Consistent, State.reg, hpc, hi, hsp, hv] using h

theorem State.LatchConsistent.hostMove (h : s.LatchConsistent) (m : HostMove) : (s.hostMove m).LatchConsistent := by
  cases m with
  | reset => exact latchConsistent_of_running rfl
  | memWrite a b => exact fun l hl => (h l hl).congr rfl rfl rfl rfl
  | keyWrite k p => exact fun l hl => (h l hl).congr rfl rfl rfl rfl
  | drawAck => exact fun l hl => (h l hl).congr rfl rfl rfl rfl
  | soundAck => exact fun l hl => (h l hl).congr rfl rfl rfl rfl

/-- No move of the host but reset writes the latch. -/
theorem hostMove_fault {m : HostMove} (hm : m ≠ .reset) : (s.hostMove m).fault = s.fault := by
  cases m with
  | reset => exact absurd rfl hm
  | memWrite | keyWrite | drawAck | soundAck => rfl

end Sys2Proof.Machine

open Sys2Proof Sys2Proof.Machine

/-- Settles O15: a step that sets the latch sets it to what an instruction raises, or to one of the two failures of the
fetch and the decoder. -/
theorem latchConsistentKeptByStep : Obligations.LatchConsistentKeptByStep := fun _ _ hs h => latchConsistent_of_step hs h

/-- Settles O16: by what an instruction can do to memory, `PC` and the stack. -/
theorem invKeptByStep : Obligations.InvKeptByStep := fun _ _ hs h => inv_of_step hs h

/-- Settles O18: move by move. -/
theorem hostMovesKeepTheInvariants : Obligations.HostMovesKeepTheInvariants :=
  fun _ m hinv hlatch => ⟨hinv.hostMove m, hlatch.hostMove m⟩

/-- Settles O19: by induction on the moves and cycles from reset. -/
theorem reachableStatesMeetTheInvariants : Obligations.ReachableStatesMeetTheInvariants := by
  intro s hs
  induction hs with
  | reset => exact ⟨reset_inv, reset_latchConsistent⟩
  | cycle _ h ih => exact ⟨inv_of_step ih.1 h, latchConsistent_of_step ih.2 h⟩
  | hostMove m _ ih => exact ⟨ih.1.hostMove m, ih.2.hostMove m⟩

/-- Settles O17: memory lists nothing, no return address is live and no failure is latched. -/
theorem resetMeetsTheInvariants : Obligations.ResetMeetsTheInvariants := ⟨reset_inv, reset_latchConsistent⟩

/-- Settles O8: an illegal opcode decodes to nothing; a legal one to an instruction, and no instruction raises
UnrecognizedOpcode. -/
theorem unrecognizedOpcodeChangesOnlyTheLatch : Obligations.UnrecognizedOpcodeChangesOnlyTheLatch := by
  intro s op hs hop
  refine ⟨fun hill => step_of_unrecognized hs hop (decode_eq_none_iff.2 hill), fun hleg t h op' o hl => ?_⟩
  obtain ⟨-, rfl⟩ | ⟨op₁, hop₁, hdec, -⟩ | ⟨op₁, i, f, part, -, -, hr, rfl⟩ :=
    step_fails hs h (not_running_of_fault hl)
  · cases hl
  · rw [hop] at hop₁
    cases hop₁
    exact hleg (decode_eq_none_iff.1 hdec)
  · cases hl
    exact hr.ne_unrecognizedOpcode op' rfl

/-- Settles O10: every branch of the step, and every instruction, answers one. -/
theorem stepAlwaysAnswersNext : Obligations.StepAlwaysAnswersNext := step_total

/-- Settles O12: in each way a step can fail, the partial effects are those of the instruction that raised. -/
theorem failingCycleDoesNotTick : Obligations.FailingCycleDoesNotTick := by
  intro s t hs h ht
  obtain ⟨-, rfl⟩ | ⟨op, -, -, rfl⟩ | ⟨op, i, f, part, -, -, hr, rfl⟩ := step_fails hs h ht
  · rfl
  · rfl
  · rw [hr.frame]
    rfl

/-- Settles O13: an instruction that raises anything but a MemoryFault has written nothing. -/
theorem onlyMemoryFaultsLeavePartialEffects : Obligations.OnlyMemoryFaultsLeavePartialEffects := by
  intro s t l hs h hl hmem
  obtain ⟨-, rfl⟩ | ⟨op, -, -, rfl⟩ | ⟨op, i, f, part, -, -, hr, rfl⟩ := step_fails hs h (not_running_of_fault hl)
  · cases hl; rfl
  · cases hl; rfl
  · cases hl
    rw [hr.eq_of_ne_memoryFault hmem]
    rfl

/-- Settles O14: an opcode fetched is the one latched, for an instruction because it is the instruction's encoding. -/
theorem failureRecordsTheFetchedOpcode : Obligations.FailureRecordsTheFetchedOpcode := by
  intro s t op l hs hop h hl
  obtain ⟨hpc, -⟩ | ⟨op₁, hop₁, -, rfl⟩ | ⟨op₁, i, f, part, hop₁, -, -, rfl⟩ :=
    step_fails hs h (not_running_of_fault hl)
  · cases hop.symm.trans (fetch_eq_none.2 hpc)
  · cases hl
    exact hop₁.symm.trans hop
  · cases hl
    exact hop₁.symm.trans hop

/-- Settles O21: reset keeps the draw counter alone, no other move writes the latch, and a halted step changes
nothing. -/
theorem resetMoveForgetsTheState : Obligations.ResetMoveForgetsTheState := by
  refine ⟨fun _ _ => rfl, fun _ => rfl, fun _ => rfl, fun _ => rfl, fun s m hs hm => ?_, fun s t hs h => ?_⟩
  · rwa [State.Running, hostMove_fault hm]
  · rw [step_of_halted hs] at h
    cases h
    exact hs
end

section
/-! SUPPORT. What every instruction and every step leaves alone (spec/10_state.md R22 to R32, spec/20_memory.md R60,
spec/70_reset_and_hazards.md R248), read off what an instruction can do; and that two runs that differ in the sound timer
and `SOUND` go on differing in these alone (spec/10_state.md R28). -/

namespace Sys2Proof.Machine

variable {s t part : State} {i : Instr} {f : Failure}

/-! ### Frames of the ends of instructions -/

theorem Raises.reg (h : Raises s i f part) (r : Reg) (hr : ¬ writesReg r i) : part.reg r = s.reg r := by
  cases h with
  | loadRegs x v hv => exact hv r hr
  | _ => rfl

theorem Ends.reg (h : Ends s i t) (r : Reg) (hr : ¬ writesReg r i) : t.reg r = s.reg r := by
  cases h with
  | raised h => exact h.reg r hr
  | computed hv hpc => exact hv r hr
  | drawn x y n hv => exact hv r hr
  | _ => rfl

theorem Ends.mem (h : Ends s i t) (hB : ∀ x, i ≠ .ldB x) (hS : ∀ x, i ≠ .storeRegs x) : t.mem = s.mem := by
  cases h with
  | raised h =>
    cases h with
    | ldB x => exact absurd rfl (hB x)
    | storeRegs x => exact absurd rfl (hS x)
    | _ => rfl
  | digits x => exact absurd rfl (hB x)
  | stored x => exact absurd rfl (hS x)
  | _ => rfl

theorem Ends.display (h : Ends s i t) (hC : ∀ u, i ≠ .cls u) (hD : ∀ x y n, i ≠ .drw x y n) :
    t.fb = s.fb ∧ t.draw = s.draw := by
  cases h with
  | raised h =>
    cases h with
    | drw x y n => exact absurd rfl (hD x y n)
    | _ => exact ⟨rfl, rfl⟩
  | cleared u => exact absurd rfl (hC u)
  | drawn x y n => exact absurd rfl (hD x y n)
  | _ => exact ⟨rfl, rfl⟩

theorem Ends.stack (h : Ends s i t) (hC : ∀ nnn, i ≠ .call nnn) : t.stack = s.stack := by
  cases h with
  | raised h => rw [h.frame]; rfl
  | called nnn => exact absurd rfl (hC nnn)
  | _ => rfl

/-- An instruction writes neither the keypad nor `SOUND`, and no instruction clears `DRAW`. -/
theorem Ends.outputs (h : Ends s i t) : t.keys = s.keys ∧ t.sound = s.sound ∧ (s.draw = true → t.draw = true) := by
  cases h with
  | raised h => rw [h.frame]; exact ⟨rfl, rfl, id⟩
  | cleared | drawn => exact ⟨rfl, rfl, fun _ => rfl⟩
  | _ => exact ⟨rfl, rfl, id⟩

/-! ### Two runs that differ in the sound timer and `SOUND` -/

/-- The state with another sound timer and another `SOUND`. -/
def State.withSound (s : State) (st : Byte) (sound : Bool) : State := { s with st := st, sound := sound }

/-- The next states of the two runs: the same but for the sound timer and `SOUND`. -/
def nextWithSound (st : Byte) (sound : Bool) : Result → Result
  | .next t => .next (t.withSound st sound)
  | .fault r => .fault r
  | .refused r => .refused r

theorem State.skipIf_withSound (s : State) (c : Bool) (st : Byte) (sound : Bool) :
    (s.skipIf c).withSound st sound = (s.withSound st sound).skipIf c := by
  cases c <;> rfl

theorem endAccesses_withSound (bad : Option Nat) (op : Word) (part done : State) (st : Byte) (sound : Bool) :
    nextWithSound st sound (endAccesses bad op part done) =
      endAccesses bad op (part.withSound st sound) (done.withSound st sound) := by
  cases bad <;> rfl

theorem endKeySkip_withSound (x : Reg) (op : Word) (p : Bool) (s : State) (st : Byte) (sound : Bool) :
    nextWithSound st sound (endKeySkip x op p s) = endKeySkip x op p (s.withSound st sound) := by
  by_cases h : 15 < (s.reg x).toNat
  · rw [endKeySkip_of_above op p h, endKeySkip_of_above (s := s.withSound st sound) op p h]
    rfl
  · have hk : (⟨(s.reg x).toNat, by omega⟩ : Key).val = (s.reg x).toNat := rfl
    rw [endKeySkip_of_key op p hk, endKeySkip_of_key (s := s.withSound st sound) op p hk]
    exact congrArg Host.Outcome.next (s.skipIf_withSound _ st sound)

/-- No instruction but `FX18` writes the sound timer or `SOUND`, and none reads them. -/
theorem exec_withSound (s : State) (st : Byte) (sound : Bool) (hi : ∀ x, i ≠ .ldStVx x) :
    nextWithSound st sound (exec i s) = exec i (s.withSound st sound) := by
  cases i with
  | ldStVx x => exact absurd rfl (hi x)
  | seImm | sneImm | seReg | sneReg => exact congrArg Host.Outcome.next (s.skipIf_withSound _ st sound)
  | skp x | sknp x => exact endKeySkip_withSound x _ _ s st sound
  | drw | ldB | storeRegs | loadRegs => exact endAccesses_withSound _ _ _ _ st sound
  | ret u =>
    obtain h | ⟨k, hk⟩ := s.sp_eq_zero_or_succ
    · rw [exec_ret_underflow u h, exec_ret_underflow (s := s.withSound st sound) u h]; rfl
    · rw [exec_ret_pop u hk, exec_ret_pop (s := s.withSound st sound) u hk]; rfl
  | call nnn =>
    obtain h | ⟨k, hk⟩ := s.sp_eq_sixteen_or_lt
    · rw [exec_call_overflow nnn h, exec_call_overflow (s := s.withSound st sound) nnn h]; rfl
    · rw [exec_call_push nnn hk, exec_call_push (s := s.withSound st sound) nnn hk]; rfl
  | ldVxK x =>
    cases hk : pressedKeys s.keys with
    | nil => rw [exec_ldVxK_nil x hk, exec_ldVxK_nil (s := s.withSound st sound) x hk]; rfl
    | cons k more => rw [exec_ldVxK_cons x hk, exec_ldVxK_cons (s := s.withSound st sound) x hk]; rfl
  | _ => rfl

/-- The instruction of the other run. -/
theorem exec_withSound_next (h : exec i s = .next t) (st : Byte) (sound : Bool) :
    ∃ st' sound', exec i (s.withSound st sound) = .next (t.withSound st' sound') := by
  by_cases hi : ∀ x, i ≠ .ldStVx x
  · exact ⟨st, sound, by rw [← exec_withSound s st sound hi, h]; rfl⟩
  · push Not at hi
    obtain ⟨x, rfl⟩ := hi
    cases h
    exact ⟨s.reg x, sound, rfl⟩

/-- The tick of the other run: the delay timer ticks by itself. -/
theorem State.tick_withSound (t : State) (st : Byte) (sound : Bool) :
    (t.withSound st sound).tick =
      t.tick.withSound (t.withSound st sound).tick.st (t.withSound st sound).tick.sound := by
  have hdt : (t.withSound st sound).tick.dt = t.tick.dt :=
    BitVec.eq_of_toNat_eq (by rw [State.tick_dt_toNat, State.tick_dt_toNat]; rfl)
  unfold State.withSound at hdt ⊢
  rw [State.mk.injEq]
  simp [hdt]

/-- The step of the other run. -/
theorem step_withSound (h : step s = .next t) (st : Byte) (sound : Bool) :
    ∃ st' sound', step (s.withSound st sound) = .next (t.withSound st' sound') := by
  obtain ⟨hf, rfl⟩ | ⟨hf, hpc, rfl⟩ | ⟨op, hf, hop, hdec, rfl⟩ | ⟨op, i, u, hf, hop, hdec, hexec, hu⟩ := step_cases h
  · exact ⟨st, sound, step_of_halted hf⟩
  · exact ⟨st, sound, step_of_fetch_outside hf hpc⟩
  · exact ⟨st, sound, step_of_unrecognized hf hop hdec⟩
  · obtain ⟨st', sound', hexec'⟩ := exec_withSound_next hexec st sound
    have hi : (s.withSound st sound).instr = some i := Option.bind_eq_some_iff.2 ⟨op, hop, hdec⟩
    have hstep : step (s.withSound st sound) = endCycle (.next (u.withSound st' sound')) := by
      rw [step_eq_endCycle (s := s.withSound st sound) hf hi, hexec']
    obtain ⟨hu, rfl⟩ | ⟨hu, rfl⟩ := hu
    · have htick := u.tick_withSound st' sound'
      exact ⟨_, _, by rw [hstep, endCycle_of_running (t := u.withSound st' sound') hu, htick]⟩
    · exact ⟨st', sound', hstep.trans (endCycle_of_halted hu)⟩

end Sys2Proof.Machine

open Sys2Proof Sys2Proof.Machine

/-- Settles O55: by what each way an instruction can end does to the registers. -/
theorem registersWrittenOnlyByTheirInstructions : Obligations.RegistersWrittenOnlyByTheirInstructions :=
  fun _ _ _ r h hr => (ends_of_exec h).reg r hr

/-- Settles O56: space by space, by what each way an instruction can end writes. -/
theorem spacesWrittenOnlyByTheirInstructions : Obligations.SpacesWrittenOnlyByTheirInstructions := by
  intro i s t h
  have hends := ends_of_exec h
  obtain ⟨hkeys, -, -⟩ := hends.outputs
  exact ⟨hends.mem, hends.display, hends.stack, hkeys⟩

/-- Settles O57: an instruction that completes leaves `PC` as the list says, one that raises as it was. -/
theorem pcFollowsTheList : Obligations.PcFollowsTheList := by
  intro i s t hs h
  obtain ⟨hf, hnext⟩ | ⟨f, part, hr, rfl⟩ := (ends_of_exec h).completes_or_raises
  · exact ⟨fun _ => hnext, fun ht => absurd (hf.trans hs) ht⟩
  · refine ⟨fun ht => absurd ht (not_running_of_fault rfl), fun _ => ?_⟩
    rw [hr.frame]
    rfl

/-- Settles O58: in each way a step can end, by what the instruction and the tick do to the flags. -/
theorem coreNeverClearsTheOutputFlags : Obligations.CoreNeverClearsTheOutputFlags := by
  intro s t h
  obtain ⟨hf, rfl⟩ | ⟨hf, -, rfl⟩ | ⟨op, hf, -, -, rfl⟩ | ⟨op, i, u, hf, -, -, hexec, hu⟩ := step_cases h
  · exact ⟨id, id, rfl, fun _ => rfl⟩
  · exact ⟨id, id, rfl, fun hne => absurd hf hne⟩
  · exact ⟨id, id, rfl, fun hne => absurd hf hne⟩
  · obtain ⟨hkeys, hsound, hdraw⟩ := (ends_of_exec hexec).outputs
    obtain ⟨-, rfl⟩ | ⟨-, rfl⟩ := hu
    · refine ⟨fun hd => ?_, fun hs => ?_, ?_, fun hne => absurd hf hne⟩
      · rw [State.tick_draw, hdraw hd]
      · rw [State.tick_sound, hsound, hs, Bool.true_or]
      · rw [State.tick_keys, hkeys]
    · exact ⟨hdraw, fun hs => hsound.trans hs, hkeys, fun hne => absurd hf hne⟩

/-- Settles O59: the two runs' steps take the same branch. -/
theorem soundTimerIsNeverRead : Obligations.SoundTimerIsNeverRead := by
  intro s t st sound h
  obtain ⟨st', sound', h'⟩ := step_withSound h st sound
  exact ⟨_, h', rfl⟩
end

section
/-! SUPPORT. Registers, flags, the index register and the timers (spec/43_alu.md, spec/44_index_mem.md R180 to R182,
spec/46_keypad_timers.md R203 to R205): the next state of each instruction, and once for all flag writers what they leave
alone. -/

namespace Sys2Proof.Machine

variable {s t : State}

/-! ### Instructions that write one register -/

theorem exec_ldReg (s : State) (x y : Reg) : exec (.ldReg x y) s = .next ((s.setReg x (s.reg y)).advance 2) := rfl

theorem exec_orReg (s : State) (x y : Reg) :
    exec (.orReg x y) s = .next ((s.setReg x (s.reg x ||| s.reg y)).advance 2) := rfl

theorem exec_andReg (s : State) (x y : Reg) :
    exec (.andReg x y) s = .next ((s.setReg x (s.reg x &&& s.reg y)).advance 2) := rfl

theorem exec_xorReg (s : State) (x y : Reg) :
    exec (.xorReg x y) s = .next ((s.setReg x (s.reg x ^^^ s.reg y)).advance 2) := rfl

theorem exec_rnd (s : State) (x : Reg) (nn : Byte) :
    exec (.rnd x nn) s = .next ((s.nextDraw.setReg x (Config.rnd s.draws &&& nn)).advance 2) := rfl

theorem exec_ldVxDt (s : State) (x : Reg) : exec (.ldVxDt x) s = .next ((s.setReg x s.dt).advance 2) := rfl

/-- An instruction that writes to `V[x]` a byte whose bits are `f` of the operands' bits. -/
theorem endsBitwise_of_setReg {f : Bool → Bool → Bool} {x y : Reg} {b : Byte} {r : Result}
    (hr : r = .next ((s.setReg x b).advance 2))
    (hb : ∀ j < 8, b.getLsbD j = f ((s.reg x).getLsbD j) ((s.reg y).getLsbD j)) : EndsBitwise f x y s r := by
  refine ⟨_, hr, fun j hj => ?_, State.setReg_advance_spec rfl⟩
  rw [s.reg_setReg_advance_same, hb j hj]

/-! ### Flag writers (spec/43_alu.md R173) -/

theorem exec_addReg (s : State) (x y : Reg) : exec (.addReg x y) s =
    .next ((s.setFlagThenReg (carry (s.reg x) (s.reg y)) x (s.reg x + s.reg y)).advance 2) := rfl

theorem exec_subReg (s : State) (x y : Reg) : exec (.subReg x y) s =
    .next ((s.setFlagThenReg (noBorrow (s.reg x) (s.reg y)) x (s.reg x - s.reg y)).advance 2) := rfl

theorem exec_subnReg (s : State) (x y : Reg) : exec (.subnReg x y) s =
    .next ((s.setFlagThenReg (noBorrow (s.reg y) (s.reg x)) x (s.reg y - s.reg x)).advance 2) := rfl

theorem exec_shr (s : State) (x : Reg) (u : Nibble) : exec (.shr x u) s =
    .next ((s.setFlagThenReg (bitOutRight (s.reg x)) x (s.reg x >>> 1)).advance 2) := rfl

theorem exec_shl (s : State) (x : Reg) (u : Nibble) : exec (.shl x u) s =
    .next ((s.setFlagThenReg (bitOutLeft (s.reg x)) x (s.reg x <<< 1)).advance 2) := rfl

/-- A flag writer completes with its result in `V[x]` and, unless that is `VF`, its flag in `VF`; no other register and
nothing but `PC` changes. `R` and `F` say what the result and the flag are. -/
theorem flagWriter_spec {r : Result} {c : Bool} {x : Reg} {b : Byte} {R F : Byte → Prop}
    (hr : r = .next ((s.setFlagThenReg c x b).advance 2)) (hR : R b) (hF : F (flagByte c)) :
    ∃ t, r = .next t ∧ R (t.reg x) ∧ (x ≠ 15 → F (t.reg 15)) ∧
      SameRegsExcept [x, 15] s t ∧ t.pc = s.pc + 2 ∧ t = { s with v := t.v, pc := t.pc } ∧ SameMemory s t := by
  refine ⟨_, hr, ?_, fun hx => ?_, fun q hq => ?_, rfl, rfl, fun _ => rfl⟩
  · rwa [State.reg_advance, State.reg_setFlagThenReg_same]
  · rwa [State.reg_advance, State.reg_setFlagThenReg_flag s c b hx]
  · obtain ⟨hqx, hq15⟩ : q ≠ x ∧ q ≠ 15 := by simpa using hq
    rw [State.reg_advance, State.reg_setFlagThenReg_other s c b hqx hq15]

theorem flagByte_decide (P : Prop) [Decidable P] : flagByte (decide P) = if P then 1 else 0 := by
  simp [flagByte]

theorem flagByte_carry (a b : Byte) : flagByte (carry a b) = if a.toNat + b.toNat > 255 then 1 else 0 :=
  flagByte_decide _

theorem flagByte_noBorrow (a b : Byte) : flagByte (noBorrow a b) = if b.toNat > a.toNat then 0 else 1 := by
  by_cases h : b.toNat > a.toNat <;> simp [flagByte, noBorrow, h]

theorem flagByte_indexOverflow (i : Word) (a : Byte) :
    flagByte (indexOverflow i a) = if i.toNat + a.toNat > 0xFFF then 1 else 0 :=
  flagByte_decide _

theorem flagByte_bitOutRight_toNat (a : Byte) : (flagByte (bitOutRight a)).toNat = a.toNat % 2 := by
  revert a; decide

theorem flagByte_bitOutLeft_toNat (a : Byte) : (flagByte (bitOutLeft a)).toNat = a.toNat / 128 := by
  revert a; decide

theorem byte_sub_toNat (a b : Byte) : ((a - b).toNat : Int) = ((a.toNat : Int) - b.toNat) % 256 := by
  have := a.isLt
  have := b.isLt
  rw [BitVec.toNat_sub]
  omega

theorem byte_shiftRight_one_toNat (a : Byte) : (a >>> 1).toNat = a.toNat / 2 := by
  rw [BitVec.toNat_ushiftRight, Nat.shiftRight_eq_div_pow, pow_one]

theorem byte_shiftLeft_one_toNat (a : Byte) : (a <<< 1).toNat = a.toNat * 2 % 256 := by
  rw [BitVec.toNat_shiftLeft, Nat.shiftLeft_eq, pow_one]

/-! ### The index register -/

theorem exec_ldI (s : State) (nnn : Addr) : exec (.ldI nnn) s = .next ({ s with i := wordOfAddr nnn }.advance 2) := rfl

theorem exec_ldF (s : State) (x : Reg) :
    exec (.ldF x) s = .next ({ s with i := wordOfByte (s.reg x) * 5 }.advance 2) := rfl

theorem exec_addI (s : State) (x : Reg) : exec (.addI x) s = .next
    (({ s with i := s.i + wordOfByte (s.reg x) }.setFlag (indexOverflow s.i (s.reg x))).advance 2) := rfl

/-- The index of a glyph does not wrap. -/
theorem wordOfByte_mul_five_toNat (b : Byte) : (wordOfByte b * 5).toNat = b.toNat * 5 := by
  have := b.isLt
  rw [BitVec.toNat_mul, wordOfByte_toNat, show (5 : Word).toNat = 5 from rfl]
  omega

theorem add_wordOfByte_toNat (w : Word) (b : Byte) : (w + wordOfByte b).toNat = (w.toNat + b.toNat) % 65536 := by
  rw [BitVec.toNat_add, wordOfByte_toNat]

/-! ### `VF` alone -/

theorem State.reg_setFlag_same (s : State) (c : Bool) : (s.setFlag c).reg 15 = flagByte c :=
  State.reg_setReg_same s regF _

theorem State.reg_setFlag_other (s : State) (c : Bool) {r : Reg} (hr : r ∉ [(15 : Reg)]) :
    (s.setFlag c).reg r = s.reg r :=
  State.reg_setReg_other s _ (List.ne_of_not_mem_cons hr)

/-! ### Timers, and the tick of their own cycle -/

theorem exec_ldDtVx (s : State) (x : Reg) : exec (.ldDtVx x) s = .next ({ s with dt := s.reg x }.advance 2) := rfl

theorem exec_ldStVx (s : State) (x : Reg) : exec (.ldStVx x) s = .next ({ s with st := s.reg x }.advance 2) := rfl

/-- The step of an instruction that completes is the tick of the state it leaves. -/
theorem step_of_completes {i : Instr} (hs : s.Running) (hi : s.instr = some i) (h : exec i s = .next t) (ht : t.Running) :
    step s = .next t.tick := by
  rw [step_eq_endCycle hs hi, h, endCycle_of_running ht]

end Sys2Proof.Machine

open Sys2Proof Sys2Proof.Machine

/-- Settles O39: each writes to `V[x]` the byte operation whose bits are the named ones. -/
theorem copyAndLogic : Obligations.CopyAndLogic := by
  intro s x y
  exact ⟨endsBitwise_of_setReg (exec_ldReg s x y) fun _ _ => rfl,
    endsBitwise_of_setReg (exec_orReg s x y) fun _ _ => BitVec.getLsbD_or,
    endsBitwise_of_setReg (exec_andReg s x y) fun _ _ => BitVec.getLsbD_and,
    endsBitwise_of_setReg (exec_xorReg s x y) fun _ _ => BitVec.getLsbD_xor⟩

/-- Settles O40: the flag writer whose flag is the carry out of the byte sum. -/
theorem addSetsTheCarry : Obligations.AddSetsTheCarry := by
  intro s x y
  exact flagWriter_spec (R := fun b => b.toNat = _) (F := fun b => b = _) (exec_addReg s x y) (BitVec.toNat_add _ _)
    (flagByte_carry _ _)

/-- Settles O41: the two flag writers whose flag is the absence of a borrow. -/
theorem subtractionsSetNotBorrow : Obligations.SubtractionsSetNotBorrow := by
  intro s x y
  exact ⟨flagWriter_spec (R := fun b => (b.toNat : Int) = _) (F := fun b => b = _) (exec_subReg s x y)
      (byte_sub_toNat _ _) (flagByte_noBorrow _ _),
    flagWriter_spec (R := fun b => (b.toNat : Int) = _) (F := fun b => b = _) (exec_subnReg s x y)
      (byte_sub_toNat _ _) (flagByte_noBorrow _ _)⟩

/-- Settles O42: the two flag writers whose flag is the bit shifted out. -/
theorem shiftsSetTheBitOut : Obligations.ShiftsSetTheBitOut := by
  intro s x u
  exact ⟨flagWriter_spec (R := fun b => b.toNat = _) (F := fun b => b.toNat = _) (exec_shr s x u)
      (byte_shiftRight_one_toNat _) (flagByte_bitOutRight_toNat _),
    flagWriter_spec (R := fun b => b.toNat = _) (F := fun b => b.toNat = _) (exec_shl s x u)
      (byte_shiftLeft_one_toNat _) (flagByte_bitOutLeft_toNat _)⟩

/-- Settles O43: a byte masked by `NN` has no bit outside `NN`. -/
theorem randomByteIsMasked : Obligations.RandomByteIsMasked := by
  intro s x nn
  obtain ⟨hregs, hpc, -, hmem⟩ := State.setReg_advance_spec (s := s.nextDraw) (x := x)
    (b := Config.rnd s.draws &&& nn) rfl
  have hx := s.nextDraw.reg_setReg_advance_same x (Config.rnd s.draws &&& nn) 2
  refine ⟨_, exec_rnd s x nn, hx, ?_, rfl, hregs, hpc, rfl, hmem⟩
  rw [hx, BitVec.and_assoc, BitVec.and_not_self]
  exact BitVec.and_zero

/-- Settles O44: the sums and products that do not wrap are said unreduced. -/
theorem indexArithmetic : Obligations.IndexArithmetic := by
  intro s x nnn
  refine ⟨⟨_, exec_ldI s nnn, wordOfAddr_toNat nnn, rfl, rfl, fun _ => rfl⟩,
    ⟨_, exec_ldF s x, wordOfByte_mul_five_toNat _, rfl, rfl, fun _ => rfl⟩,
    ⟨_, exec_addI s x, add_wordOfByte_toNat _ _, ?_, fun r hr => ?_, rfl, rfl, fun _ => rfl⟩⟩
  · rw [State.reg_advance, State.reg_setFlag_same, flagByte_indexOverflow]
  · rw [State.reg_advance, State.reg_setFlag_other _ _ hr]
    rfl

/-- Settles O53: each writes its register or timer and advances `PC`. -/
theorem timerMoves : Obligations.TimerMoves := by
  intro s x
  exact ⟨⟨_, exec_ldVxDt s x, s.reg_setReg_advance_same x s.dt 2, State.setReg_advance_spec rfl⟩,
    ⟨_, exec_ldDtVx s x, rfl, rfl, rfl, fun _ => rfl⟩, ⟨_, exec_ldStVx s x, rfl, rfl, rfl, fun _ => rfl⟩⟩

/-- Settles O54: the step is the tick of the state the instruction leaves, whose timers the tick's own lemmas give. -/
theorem timerInstructionsThroughTheTick : Obligations.TimerInstructionsThroughTheTick := by
  intro s x hs
  refine ⟨fun hi => ?_, fun hi => ?_, fun hi => ?_⟩
  · refine ⟨_, step_of_completes hs hi (exec_ldVxDt s x) hs, ?_, State.tick_dt_toNat _⟩
    rw [State.reg_congr (State.tick_v _), s.reg_setReg_advance_same]
  · exact ⟨_, step_of_completes hs hi (exec_ldDtVx s x) hs, State.tick_dt_toNat _⟩
  · exact ⟨_, step_of_completes hs hi (exec_ldStVx s x) hs, State.tick_st_toNat _, State.tick_sound_iff _⟩
end

section
/-! SUPPORT. The memory transfers (spec/44_index_mem.md R183 to R186): inside memory and past it, what they store and
load and the address they latch. -/

namespace Sys2Proof.Machine

variable {s : State}

/-! ### The end of an instruction with accesses -/

/-- All accesses lie in memory: the instruction completes. -/
theorem endAccesses_inside {a n : Nat} (op : Word) (part done : State) (h : n = 0 ∨ a + n ≤ 4096) :
    endAccesses (firstBad a n) op part done = .next done := by
  rw [firstBad, if_pos h]
  rfl

/-- An access lies outside memory: the first such address is latched. -/
theorem endAccesses_outside {a n : Nat} (op : Word) (part done : State) (hn : n ≠ 0) (h : 4096 < a + n) :
    endAccesses (firstBad a n) op part done = .next (part.raise (.memoryFault (max a 4096)) (some op)) := by
  rw [firstBad, if_neg (by omega)]
  rfl

theorem goodCount_inside {a n : Nat} (h : a + n ≤ 4096) : goodCount a n = n := by
  unfold goodCount
  omega

theorem goodCount_outside {a n : Nat} (h : 4096 ≤ a + n) : goodCount a n = 4096 - a := by
  unfold goodCount
  omega

/-! ### Stores -/

/-- Memory after the stores of an instruction at `I`, `I + 1` and so on. -/
def State.memAfterStores (s : State) (bs : List Byte) : Memory := (writeRange s.mem s.i.toNat bs).1

theorem exec_ldB (s : State) (x : Reg) : exec (.ldB x) s =
    endAccesses (firstBad s.i.toNat 3) (encode (.ldB x)) { s with mem := s.memAfterStores (bcdDigits (s.reg x)) }
      ({ s with mem := s.memAfterStores (bcdDigits (s.reg x)) }.advance 2) := by
  rw [← show (bcdDigits (s.reg x)).length = 3 from rfl, ← writeRange_bad s.mem]
  rfl

theorem exec_storeRegs (s : State) (x : Reg) : exec (.storeRegs x) s =
    endAccesses (firstBad s.i.toNat (x.val + 1)) (encode (.storeRegs x))
      { s with mem := s.memAfterStores (s.firstRegs x) }
      (({ s with mem := s.memAfterStores (s.firstRegs x) }.advanceIndex x).advance 2) := by
  rw [← s.length_firstRegs x, ← writeRange_bad s.mem]
  rfl

/-- Bytes outside the accesses made stay. -/
theorem read_memAfterStores_other {bs : List Byte} {a n : Nat} (hn : goodCount s.i.toNat bs.length = n)
    (h : a < s.i.toNat ∨ s.i.toNat + n ≤ a) : (s.memAfterStores bs).read a = s.mem.read a :=
  writeRange_read_other s.mem _ bs (by rwa [hn])

/-- A register of a block store is at its place. -/
theorem read_memAfterStores_firstRegs {x k : Reg} (hk : k ≤ x) (h : s.i.toNat + k.val ≤ 4095) :
    (s.memAfterStores (s.firstRegs x)).read (s.i.toNat + k.val) = s.reg k := by
  have hlen : k.val < (s.firstRegs x).length := by
    rw [s.length_firstRegs]
    exact Nat.lt_succ_of_le hk
  exact (writeRange_read_same s.mem _ _ hlen h).trans (s.firstRegs_get x k hlen)

/-- The number whose byte `FX33` stores at `I + j`. -/
def bcdDigit (b : Byte) : Fin 3 → Nat
  | 0 => b.toNat / 100
  | 1 => b.toNat / 10 % 10
  | 2 => b.toNat % 10

theorem bcdDigits_get_toNat (b : Byte) (j : Fin 3) : (bcdDigits b)[j].toNat = bcdDigit b j := by
  have := b.isLt
  fin_cases j <;> simp [bcdDigits, bcdDigit] <;> omega

/-- A digit is at its place. -/
theorem read_memAfterStores_bcdDigits (b : Byte) (j : Fin 3) (h : s.i.toNat + j.val ≤ 4095) :
    ((s.memAfterStores (bcdDigits b)).read (s.i.toNat + j.val)).toNat = bcdDigit b j := by
  rw [State.memAfterStores, writeRange_read_same s.mem _ (bcdDigits b) j.isLt h]
  exact bcdDigits_get_toNat b j

/-! ### Loads -/

/-- The state after the loads of a block load, before `I` and `PC`. -/
def State.afterLoads (s : State) (x : Reg) : State := s.setFirstRegs (readRange s.mem s.i.toNat (x.val + 1)).1

theorem exec_loadRegs (s : State) (x : Reg) : exec (.loadRegs x) s =
    endAccesses (firstBad s.i.toNat (x.val + 1)) (encode (.loadRegs x)) (s.afterLoads x)
      (((s.afterLoads x).advanceIndex x).advance 2) := by
  rw [← readRange_bad s.mem]
  rfl

/-- Exactly the registers up to `x` whose addresses lie in memory are loaded. -/
theorem reg_afterLoads (s : State) (x r : Reg) : (s.afterLoads x).reg r =
    if r ≤ x ∧ s.i.toNat + r.val ≤ 4095 then s.mem.read (s.i.toNat + r.val) else s.reg r := by
  have hlen : r.val < goodCount s.i.toNat (x.val + 1) ↔ r ≤ x ∧ s.i.toNat + r.val ≤ 4095 := by
    rw [Fin.le_def, goodCount]
    omega
  rw [State.afterLoads, State.reg_setFirstRegs]
  simp only [readRange_bytes, List.length_map, List.length_range, hlen, List.getElem_map, List.getElem_range,
    dite_eq_ite]

/-- The index after a block transfer inside memory does not wrap. -/
theorem advanceIndex_toNat {x : Reg} (h : s.i.toNat + x.val ≤ 4095) :
    (BitVec.ofNat 16 (s.i.toNat + x.val + 1)).toNat = s.i.toNat + x.val + 1 := by
  rw [BitVec.toNat_ofNat]
  omega

end Sys2Proof.Machine

open Sys2Proof Sys2Proof.Machine

/-- Settles O45: all three stores lie in memory. -/
theorem bcdStoresThreeDigits : Obligations.BcdStoresThreeDigits := by
  intro s x h
  have hcount : goodCount s.i.toNat 3 = 3 := goodCount_inside (by omega)
  exact ⟨_, (exec_ldB s x).trans (endAccesses_inside _ _ _ (.inr (by omega))),
    read_memAfterStores_bcdDigits (s.reg x) 0 (by simp only [Fin.val_zero]; omega),
    read_memAfterStores_bcdDigits (s.reg x) 1 (by simp only [Fin.val_one]; omega),
    read_memAfterStores_bcdDigits (s.reg x) 2 h, fun _ => read_memAfterStores_other hcount, rfl, rfl⟩

/-- Settles O46: the stores below address 4096 are made, and the third lies outside. -/
theorem bcdPastMemoryLatches : Obligations.BcdPastMemoryLatches := by
  intro s x h
  have hcount : goodCount s.i.toNat 3 = 4096 - s.i.toNat := goodCount_outside (by omega)
  exact ⟨_, (exec_ldB s x).trans (endAccesses_outside _ _ _ (by decide) (by omega)), rfl,
    read_memAfterStores_bcdDigits (s.reg x) 0, read_memAfterStores_bcdDigits (s.reg x) 1,
    fun _ => read_memAfterStores_other hcount, rfl⟩

/-- Settles O47: all `x + 1` stores lie in memory, and the new index does not wrap. -/
theorem blockStoreStoresTheRegisters : Obligations.BlockStoreStoresTheRegisters := by
  intro s x h
  have hcount : goodCount s.i.toNat (s.firstRegs x).length = x.val + 1 := by
    rw [s.length_firstRegs]
    exact goodCount_inside (by omega)
  refine ⟨_, (exec_storeRegs s x).trans (endAccesses_inside _ _ _ (.inr (by omega))), fun k hk => ?_,
    fun _ => read_memAfterStores_other hcount, advanceIndex_toNat h, rfl, rfl⟩
  have hkx : k.val ≤ x.val := hk
  exact read_memAfterStores_firstRegs hk (by omega)

/-- Settles O48: the stores below address 4096 are made, and the last one lies outside. -/
theorem blockStorePastMemoryLatches : Obligations.BlockStorePastMemoryLatches := by
  intro s x h
  have hcount : goodCount s.i.toNat (s.firstRegs x).length = 4096 - s.i.toNat := by
    rw [s.length_firstRegs]
    exact goodCount_outside (by omega)
  exact ⟨_, (exec_storeRegs s x).trans (endAccesses_outside _ _ _ (Nat.succ_ne_zero _) (by omega)), rfl,
    fun k hk => read_memAfterStores_firstRegs hk, fun _ => read_memAfterStores_other hcount, rfl⟩

/-- Settles O49: all `x + 1` loads lie in memory, and the new index does not wrap. -/
theorem blockLoadLoadsTheRegisters : Obligations.BlockLoadLoadsTheRegisters := by
  intro s x h
  refine ⟨_, (exec_loadRegs s x).trans (endAccesses_inside _ _ _ (.inr (by omega))), fun k hk => ?_, fun k hk => ?_,
    advanceIndex_toNat h, rfl, rfl, fun _ => rfl⟩
  · have hkx : k.val ≤ x.val := hk
    exact (reg_afterLoads s x k).trans (if_pos ⟨hk, by omega⟩)
  · exact (reg_afterLoads s x k).trans (if_neg fun hle => absurd hk (not_lt.2 hle.1))

/-- Settles O50: the loads below address 4096 are made, and the last one lies outside. -/
theorem blockLoadPastMemoryLatches : Obligations.BlockLoadPastMemoryLatches := by
  intro s x h
  refine ⟨_, (exec_loadRegs s x).trans (endAccesses_outside _ _ _ (Nat.succ_ne_zero _) (by omega)), rfl, fun k hk => ?_,
    fun k hk => ?_, rfl, fun _ => rfl⟩
  · have hkx : k ≤ x := Fin.le_def.2 (by omega)
    exact (reg_afterLoads s x k).trans (if_pos ⟨hkx, hk⟩)
  · exact (reg_afterLoads s x k).trans (if_neg fun hle => by omega)

/-- Settles O51: a store that raised nothing lay in memory, so the load reads what it stored. -/
theorem blockStoreThenLoadRestores : Obligations.BlockStoreThenLoadRestores := by
  intro s t u x hstore ht hmem hi
  by_cases h : s.i.toNat + x.val ≤ 4095
  · obtain ⟨t', hstore', hread, -⟩ := blockStoreStoresTheRegisters s x h
    cases hstore.symm.trans hstore'
    obtain ⟨w, hload, hloaded, -⟩ := blockLoadLoadsTheRegisters u x (by rwa [hi])
    exact ⟨w, hload, fun k hk => by rw [hloaded k hk, hmem, hi, hread k hk]⟩
  · obtain ⟨t', hstore', hfault, -⟩ := blockStorePastMemoryLatches s x (by omega)
    cases hstore.symm.trans hstore'
    exact absurd ht (not_running_of_fault hfault)

/-- Settles O25: the fetch reads the first two registers stored, high byte first. -/
theorem storedRegistersAreFetched : Obligations.StoredRegistersAreFetched := by
  intro s x hx h
  obtain ⟨t, hstore, hread, -⟩ := blockStoreStoresTheRegisters s x h
  have h0 : t.mem.read s.i.toNat = s.reg 0 := hread 0 (Fin.zero_le x)
  have h1 : t.mem.read (s.i.toNat + 1) = s.reg 1 := hread 1 hx
  refine ⟨t, _, hstore, fetch_eq_some.2 ⟨by omega, rfl⟩, ?_⟩
  rw [wordOfBytes_toNat, h0, h1]
end

section
/-! SUPPORT. `DXYN` (spec/45_display.md R191): the framebuffer and the collision after the rows whose bytes lie in
memory, in terms of the cells the sprite covers. -/

namespace Sys2Proof.Machine

/-- The framebuffer and the collision after the rows of a sprite of `n` rows whose bytes lie in memory. -/
def State.drawn (s : State) (x y : Reg) (n : Nat) : Canvas :=
  drawRows (s.reg x) (s.reg y) 0 (readRange s.mem s.i.toNat n).1 (s.fb, false)

theorem exec_drw (s : State) (x y : Reg) (n : Nat) : exec (.drw x y n) s =
    endAccesses (firstBad s.i.toNat n) (encode (.drw x y n)) { s with fb := (s.drawn x y n).1 }
      (({ s with fb := (s.drawn x y n).1, draw := true }.setFlag (s.drawn x y n).2).advance 2) := by
  rw [← readRange_bad s.mem]
  rfl

section
variable (s : State) (x y : Reg) {n rows : Nat}

/-- The cells drawn are those the sprite covers, as far as its bytes lie in memory. -/
theorem mem_spriteCells_iff_covers (hrows : goodCount s.i.toNat n = rows) (c : Fin 2048) :
    c ∈ spriteCells (s.reg x) (s.reg y) 0 (readRange s.mem s.i.toNat n).1 ↔ SpriteCovers s x y rows c := by
  subst hrows
  simp only [mem_spriteCells, readRange_bytes, List.length_map, List.length_range, List.getElem_map,
    List.getElem_range, Nat.zero_add, SpriteCovers, spriteBit, spriteCell, Fin.ext_iff, exists_prop]

/-- A sprite of `DXYN` has few enough rows that no cell is toggled twice. -/
theorem length_readRange_le (hn : n < 16) : (readRange s.mem s.i.toNat n).1.length ≤ 32 := by
  rw [readRange_bytes, List.length_map, List.length_range, goodCount]
  omega

theorem cell_drawn_of_covers (hn : n < 16) (hrows : goodCount s.i.toNat n = rows) (c : Fin 2048)
    (hc : SpriteCovers s x y rows c) : Framebuffer.cell (s.drawn x y n).1 c = !Framebuffer.cell s.fb c := by
  rw [State.drawn, drawRows_cell _ _ (length_readRange_le s hn),
    decide_eq_true ((mem_spriteCells_iff_covers s x y hrows c).2 hc), Bool.xor_true]

theorem cell_drawn_of_not_covers (hn : n < 16) (hrows : goodCount s.i.toNat n = rows) (c : Fin 2048)
    (hc : ¬ SpriteCovers s x y rows c) : Framebuffer.cell (s.drawn x y n).1 c = Framebuffer.cell s.fb c := by
  rw [State.drawn, drawRows_cell _ _ (length_readRange_le s hn),
    decide_eq_false (mt (mem_spriteCells_iff_covers s x y hrows c).1 hc), Bool.xor_false]

/-- A collision is a set cell that the sprite covers. -/
theorem drawn_hit_iff (hn : n < 16) (hrows : goodCount s.i.toNat n = rows) :
    (s.drawn x y n).2 = true ↔ ∃ c, SpriteCovers s x y rows c ∧ Framebuffer.cell s.fb c = true := by
  rw [State.drawn, drawRows_hit _ _ (length_readRange_le s hn), Bool.false_or, List.any_eq_true]
  simp only [mem_spriteCells_iff_covers s x y hrows]

end

end Sys2Proof.Machine

open Sys2Proof Sys2Proof.Machine

/-- Settles O27: all rows lie in memory, so exactly the sprite's cells are toggled, each once. -/
theorem drwDrawsTheSprite : Obligations.DrwDrawsTheSprite := by
  intro s x y n hn h
  have hrows : goodCount s.i.toNat n = n := by
    unfold goodCount
    omega
  refine ⟨_, (exec_drw s x y n).trans (endAccesses_inside _ _ _ h), cell_drawn_of_covers s x y hn hrows,
    cell_drawn_of_not_covers s x y hn hrows, fun hhit => ?_, fun hhit => ?_, fun r hr => ?_, rfl, rfl, rfl, fun _ => rfl⟩
  · rw [State.reg_advance, State.reg_setFlag_same, (drawn_hit_iff s x y hn hrows).2 hhit]
    rfl
  · rw [State.reg_advance, State.reg_setFlag_same, Bool.eq_false_of_not_eq_true (mt (drawn_hit_iff s x y hn hrows).1 hhit)]
    rfl
  · rw [State.reg_advance, State.reg_setFlag_other _ _ hr]
    rfl

/-- Settles O28: the rows drawn are those below the first address outside. -/
theorem drwPastMemoryLatches : Obligations.DrwPastMemoryLatches := by
  intro s x y n hn hn0 h
  have hrows : goodCount s.i.toNat n = 4096 - s.i.toNat := goodCount_outside (by omega)
  exact ⟨_, (exec_drw s x y n).trans (endAccesses_outside _ _ _ hn0 h), rfl, cell_drawn_of_covers s x y hn hrows,
    cell_drawn_of_not_covers s x y hn hrows, rfl, fun _ => rfl⟩
end

section
/-! SUPPORT. The host's moves, the loader and the canonical form of memory (spec/70_reset_and_hazards.md R244 to R248,
spec/20_memory.md R61, spec/10_state.md R40). -/

namespace Sys2Proof.Machine

/-! ### Keys and programs -/

/-- The bit of a key after the host writes a key. -/
theorem getLsbD_keysWith (keys : BitVec 16) (k j : Key) (p : Bool) :
    (keysWith keys k p).getLsbD j.val = if j = k then p else keys.getLsbD j.val := by
  have hbit : (BitVec.twoPow 16 k.val).getLsbD j.val = decide (j = k) := by
    rw [BitVec.getLsbD_twoPow, decide_eq_true k.isLt, Bool.true_and]
    exact decide_eq_decide.2 (Fin.ext_iff.symm.trans eq_comm)
  cases p with
  | true =>
    rw [keysWith, if_pos rfl, BitVec.getLsbD_or, hbit]
    split <;> simp_all
  | false =>
    rw [keysWith, if_neg Bool.false_ne_true, BitVec.getLsbD_and, BitVec.getLsbD_not, hbit]
    split <;> simp_all

/-- Bytes outside the program stay. -/
theorem read_storeBytes_other (m : Memory) (a : Nat) (bs : List Byte) {a' : Nat} (h : a' < a ∨ a + bs.length ≤ a') :
    (storeBytes m a bs).read a' = m.read a' := by
  induction bs generalizing m a with
  | nil => rfl
  | cons b bs ih =>
    rw [List.length_cons] at h
    rw [storeBytes, ih _ _ (by omega), Memory.read_write_other _ (by omega)]

/-- Byte `k` of the program is at its place. -/
theorem read_storeBytes_same (m : Memory) (a : Nat) (bs : List Byte) (k : Nat) (hk : k < bs.length) :
    (storeBytes m a bs).read (a + k) = bs[k] := by
  induction bs generalizing m a k with
  | nil => cases hk
  | cons b bs ih =>
    cases k with
    | zero =>
      rw [storeBytes, read_storeBytes_other _ _ _ (by omega)]
      exact Memory.read_write_same m a b
    | succ k =>
      rw [storeBytes, show a + (k + 1) = a + 1 + k by omega, ih _ _ _ (Nat.lt_of_succ_lt_succ hk)]
      rfl

theorem loadRom_fits {rom : List Byte} (s : State) (h : rom.length ≤ 3584) :
    s.loadRom rom = some { s with mem := storeBytes s.mem 0x200 rom } := if_pos h

/-! ### The canonical form of memory -/

/-- The first byte listed tells a memory from one that lists nothing so low. -/
theorem Memory.read_ne_of_head {lo lo' k : Nat} {b : Byte} {rest m : Memory}
    (h : Memory.wfFrom lo ((k, b) :: rest) = true) (hm : Memory.wfFrom lo' m = true) (hk : k < lo') :
    Memory.read ((k, b) :: rest) k ≠ m.read k := by
  obtain ⟨-, -, hb, -⟩ := Memory.wfFrom_cons.1 h
  rwa [Memory.read_cons_same, Memory.read_below hm hk]

/-- Memories with the same first entry agree in the rest when they agree. -/
theorem Memory.read_tail_eq {lo k : Nat} {b : Byte} {rest rest' : Memory}
    (h : Memory.wfFrom lo ((k, b) :: rest) = true) (h' : Memory.wfFrom lo ((k, b) :: rest') = true)
    (e : ∀ a, Memory.read ((k, b) :: rest) a = Memory.read ((k, b) :: rest') a) (a : Nat) :
    rest.read a = rest'.read a := by
  obtain ⟨-, -, -, hrest⟩ := Memory.wfFrom_cons.1 h
  obtain ⟨-, -, -, hrest'⟩ := Memory.wfFrom_cons.1 h'
  by_cases ha : a = k
  · subst ha
    rw [Memory.read_below hrest (Nat.lt_succ_self a), Memory.read_below hrest' (Nat.lt_succ_self a)]
  · simpa only [Memory.read_cons_other _ _ ha] using e a

theorem Memory.eq_of_read_eq {lo : Nat} {m m' : Memory} (hm : Memory.wfFrom lo m = true)
    (hm' : Memory.wfFrom lo m' = true) (e : ∀ a, m.read a = m'.read a) : m = m' := by
  induction m generalizing lo m' with
  | nil =>
    cases m' with
    | nil => rfl
    | cons p' rest' =>
      exact absurd (e p'.1).symm (Memory.read_ne_of_head (lo' := p'.1 + 1) hm' rfl (Nat.lt_succ_self _))
  | cons p rest ih =>
    obtain ⟨k, b⟩ := p
    cases m' with
    | nil => exact absurd (e k) (Memory.read_ne_of_head (lo' := k + 1) hm rfl (Nat.lt_succ_self k))
    | cons p' rest' =>
      obtain ⟨k', b'⟩ := p'
      obtain ⟨hlo, hk, hb, hrest⟩ := Memory.wfFrom_cons.1 hm
      obtain ⟨hlo', hk', hb', hrest'⟩ := Memory.wfFrom_cons.1 hm'
      obtain hlt | rfl | hlt := lt_trichotomy k k'
      · have hfrom : Memory.wfFrom k' ((k', b') :: rest') = true := Memory.wfFrom_cons.2 ⟨le_rfl, hk', hb', hrest'⟩
        exact absurd (e k) (Memory.read_ne_of_head hm hfrom hlt)
      · have hbb : b = b' := by simpa only [Memory.read_cons_same] using e k
        subst hbb
        rw [ih hrest hrest' (Memory.read_tail_eq hm hm' e)]
      · have hfrom : Memory.wfFrom k ((k, b) :: rest) = true := Memory.wfFrom_cons.2 ⟨le_rfl, hk, hb, hrest⟩
        exact absurd (e k').symm (Memory.read_ne_of_head hm' hfrom hlt)

/-! ### Reset -/

theorem read_reset (a : Nat) : State.reset.mem.read a = Memory.unlisted a := rfl

theorem reg_reset (r : Reg) : State.reset.reg r = 0 := by simp [State.reg, State.reset]

theorem stack_reset (k : Fin 16) : State.reset.stack[k] = 0 := by simp [State.reset]

theorem key_reset (k : Key) : State.reset.key k = false := by simp [State.key, State.reset]

end Sys2Proof.Machine

open Sys2Proof Sys2Proof.Machine

/-- Settles O22: the memory law of a write, and the bits of the keypad with one key written. -/
theorem hostMovesTouchOnlyTheirTarget : Obligations.HostMovesTouchOnlyTheirTarget := by
  refine ⟨fun s a b => ⟨Memory.read_write_same _ _ _, fun a' ha => ?_, rfl⟩,
    fun s k j p => ⟨getLsbD_keysWith s.keys k j p, rfl⟩, fun s => ⟨rfl, rfl⟩⟩
  exact Memory.read_write_other b (by omega)

/-- Settles O23: by induction on the program. -/
theorem programLoadPlacesTheBytes : Obligations.ProgramLoadPlacesTheBytes := by
  intro s rom
  exact ⟨fun h => ⟨_, loadRom_fits s h, read_storeBytes_same s.mem 0x200 rom,
    fun _ => read_storeBytes_other s.mem 0x200 rom, rfl⟩, fun h => if_neg (not_le.2 h)⟩

/-- Settles O24: by induction on the lists; the first entries are the same because the lower of two different ones would
be read in one memory alone. -/
theorem canonicalMemoriesWithEqualBytesAreEqual : Obligations.CanonicalMemoriesWithEqualBytesAreEqual :=
  fun _ _ hm hm' e => Memory.eq_of_read_eq hm hm' e

/-- Settles O20: memory lists nothing, so every address reads as unlisted, and the other fields are literals. -/
theorem resetLeavesTheListedValues : Obligations.ResetLeavesTheListedValues := by
  refine ⟨reg_reset, fun a ha => dif_pos ha, fun a ha _ => dif_neg (not_lt.2 ha), stack_reset, key_reset, rfl, rfl, rfl,
    rfl, rfl, Framebuffer.cell_blank, rfl, rfl, rfl⟩
end
